-- ==== Sys2Proof/Word.lean ====
section
/-! DEFINITION. The word types of the block: bytes, 32-bit words, byte strings of fixed length, packets, and the
five-word record that both hash engines work on. Everything that computes with them stands in files a repair may mend. -/

namespace Sys2Proof

/-- A byte: 8 bits, bit 0 the least significant (00_scope.md R8). -/
abbrev Byte := BitVec 8

/-- A word: 32 bits, bit 31 the most significant (00_scope.md R8). -/
abbrev Word := BitVec 32

/-- A byte string whose length the spec fixes; element 0 is the first byte (00_scope.md R9). -/
abbrev Bytes (n : Nat) := Vector Byte n

/-- A packet on the command port, in either direction: a byte string of known length (30_encoding.md R70, R74). -/
abbrev Packet := List Byte

/-- Five words: the intermediate hash state `H[0..4]` (10_state.md R21) and, inside one compression, the working
registers A, B, C, D, E (40_sha1_engine_a.md R104). `a` is word 0, `e` is word 4. -/
structure HashWords where
  a : Word
  b : Word
  c : Word
  d : Word
  e : Word
deriving DecidableEq, Repr, Inhabited

end Sys2Proof
end

