-- ==== Sys2Proof/Config.lean ====
section
/-! DEFINITION. The open parameters of the block (00_scope.md R7) and their types: each is a constant without a body, so that
no proof can learn its value and every claim about the machine holds for all of them. The fixed parameters (R6) stand in
Machine/Params.lean. -/

namespace Sys2Proof

/-! ## The types of the open parameters (00_scope.md R7) -/

/-- `CRC8_ORDER` (41_crc8.md R141). -/
inductive Crc8Order
  /-- shift right, mask `0x8C` -/
  | lsbFirst
  /-- shift left, mask `0x31` -/
  | msbFirst
deriving DecidableEq, Repr, Inhabited

/-- `SCRAMBLE_VARIANT` (43_derive_scramble.md R181). -/
inductive ScrambleVariant
  | variantA
  | variantB
deriving DecidableEq, Repr, Inhabited

/-- One entry `(d, s)` of a scramble table: the byte at `dst` is changed, the byte at `src` is XORed into it. Positions run
from 0 to 15 (43_derive_scramble.md R180). -/
structure ScramblePair where
  dst : Fin 16
  src : Fin 16
deriving DecidableEq, Repr, Inhabited

/-- The well-formedness of a scramble table (43_derive_scramble.md R180): exactly 8 pairs; (a) no pair has its own
destination as its source; (b) the destinations are pairwise distinct; (c) no position is both a destination and a source. -/
def scrambleTableWellFormed (pairs : List ScramblePair) : Bool :=
  decide (pairs.length = 8) &&
  pairs.all (fun p => decide (p.dst ≠ p.src)) &&
  decide (pairs.map ScramblePair.dst).Nodup &&
  pairs.all (fun p => pairs.all (fun q => decide (p.dst ≠ q.src)))

/-- The spec's illustrative table `EX1` (95_test_vectors.md section 5), which is not the device's. It only shows that
well-formed tables exist and serves the tests; the machine does not use it. -/
def illustrativeTable1 : List ScramblePair :=
  [⟨0, 8⟩, ⟨1, 9⟩, ⟨2, 10⟩, ⟨3, 11⟩, ⟨4, 12⟩, ⟨5, 13⟩, ⟨6, 14⟩, ⟨7, 15⟩]

/-- A scramble table of a configuration: pairs that pass the check, so that a configuration that fails it cannot be built
(43_derive_scramble.md R180: "refuses a configuration that fails it"; log 2). -/
structure ScrambleTable where
  pairs : List ScramblePair := illustrativeTable1
  wellFormed : scrambleTableWellFormed pairs = true := by decide
deriving DecidableEq, Repr, Inhabited

/-- `MAX_PAYLOAD`: unbounded, or `80 + extra` operand bytes. A bounded value must be at least 80 (30_encoding.md R70), which the
type says (log 4). -/
inductive PayloadLimit
  | unbounded
  | bounded (extra : Nat)
deriving DecidableEq, Repr, Inhabited

/-- The value of `MAX_PAYLOAD`, where there is one. -/
def PayloadLimit.bound : PayloadLimit → Option Nat
  | .unbounded => none
  | .bounded extra => some (80 + extra)

/-! ## The open parameters themselves: constants without a body -/

/-- `SCRAMBLE_VARIANT`: "a model must not assume one" (43_derive_scramble.md R181; log 1). -/
opaque Config.scrambleVariant : ScrambleVariant

/-- `SCRAMBLE_TABLE_A`: its contents are in no source (43_derive_scramble.md R180; log 2). -/
opaque Config.scrambleTableA : ScrambleTable

/-- `SCRAMBLE_TABLE_B`: its contents are in no source (43_derive_scramble.md R180; log 2). -/
opaque Config.scrambleTableB : ScrambleTable

/-- `MAC_FEEDFORWARD`: the document decides neither value (42_sha1_engine_b.md R163, 90_conflicts.md C7; log 1). -/
opaque Config.macFeedforward : Bool

/-- `CRC8_ORDER`: a named parameter; `LSB_FIRST` is the default of the spec's vectors (00_scope.md R7; log 3). -/
opaque Config.crc8Order : Crc8Order

/-- `MAX_PAYLOAD` (00_scope.md R7, 30_encoding.md R70; log 4). -/
opaque Config.maxPayload : PayloadLimit

/-- Of the host, not of the block: a `SequenceError` bubbles up as `transportFailed` if this is true, as `mismatch` if not.
60_exceptions.md R213 says that it is one of the two, and no rule says which (log 21). -/
opaque Config.sequenceErrorIsTransportFailed : Bool

end Sys2Proof
end

