-- ==== Sys2Proof/Syntax.lean ====
section
/-! DEFINITION. The command set, whole: one constructor for each row of the opcode table, its operands in packet order
(30_encoding.md R73), and the status codes of a response (R75). -/

namespace Sys2Proof

/-- The eight commands (30_encoding.md R73). An operand of fixed length is a byte string of that length (R71, format `F`);
the data of formats `V` and `IV` is a byte string of any length. -/
inductive Instr
  /-- `SHA_INIT` (opcode `0x10`, format `Z`): 40_sha1_engine_a.md R107. -/
  | shaInit
  /-- `SHA_UPDATE data` (opcode `0x11`, format `V`): 40_sha1_engine_a.md R109. -/
  | shaUpdate (data : List Byte)
  /-- `SHA_FINAL` (opcode `0x12`, format `Z`): 40_sha1_engine_a.md R111. -/
  | shaFinal
  /-- `CRC8 init, data` (opcode `0x20`, format `IV`): 41_crc8.md R145. -/
  | crc8 (init : Byte) (data : List Byte)
  /-- `SN_CHECK serial` (opcode `0x21`, format `F(8)`): 41_crc8.md R147. -/
  | snCheck (serial : Bytes 8)
  /-- `MAC message, secret` (opcode `0x30`, format `F(56,16)`): 42_sha1_engine_b.md R165. -/
  | mac (message : Bytes 56) (secret : Bytes 16)
  /-- `SCRAMBLE digest` (opcode `0x40`, format `F(20)`): 43_derive_scramble.md R184. -/
  | scramble (digest : Bytes 20)
  /-- `DERIVE device_mac, user_data, serial` (opcode `0x41`, format `F(8,64,8)`): 43_derive_scramble.md R185. -/
  | derive (deviceMac : Bytes 8) (userData : Bytes 64) (serial : Bytes 8)
deriving DecidableEq, Repr

/-- The status of a response (30_encoding.md R75). No other status is ever produced. -/
inductive Status
  | ok
  | errAbsent
  | errTooLong
  | errSequence
  | errIllegal
deriving DecidableEq, Repr

end Sys2Proof
end

