-- ==== Sys2Proof/WellFormed.lean ====
section
/-! DEFINITION. What makes a command, and a configuration, well-formed. The lengths of fixed operands hold by their types;
what is left to check of a command is the payload limit (30_encoding.md R70). The check of a scramble table stands with the
table's type in Config.lean. -/

namespace Sys2Proof

/-- How many operand bytes a command's packet carries, `len(p) - 1` (30_encoding.md R71). -/
def Instr.payloadLength : Instr → Nat
  | .shaInit => 0
  | .shaUpdate data => data.length
  | .shaFinal => 0
  | .crc8 _ data => 1 + data.length
  | .snCheck _ => 8
  | .mac _ _ => 56 + 16
  | .scramble _ => 20
  | .derive _ _ _ => 8 + 64 + 8

/-- A command is well-formed under a payload limit when the limit is unbounded or its payload is at most the bound
(30_encoding.md R70). -/
def Instr.wellFormed (limit : PayloadLimit) (i : Instr) : Bool :=
  match limit.bound with
  | none => true
  | some m => decide (i.payloadLength ≤ m)

end Sys2Proof
end

