-- ==== Sys2Proof/Decode.lean ====
section
/-! DEFINITION. Command packets to commands and back: the opcode map (30_encoding.md R73), the formats (R71), operand
assembly (R72), the total decoder in the order of checks of R77, the encoder, and the layout of an opcode-table word as a
packet. The encoding's numbers are the spec's own decisions (log 12). -/

namespace Sys2Proof

/-! ## Opcodes and formats -/

/-- The eight opcodes by name (30_encoding.md R73). -/
inductive Opcode
  | shaInit
  | shaUpdate
  | shaFinal
  | crc8
  | snCheck
  | mac
  | scramble
  | derive
deriving DecidableEq, Repr

/-- The opcode byte of a command (30_encoding.md R73). -/
def Opcode.byte : Opcode → Byte
  | .shaInit => 0x10
  | .shaUpdate => 0x11
  | .shaFinal => 0x12
  | .crc8 => 0x20
  | .snCheck => 0x21
  | .mac => 0x30
  | .scramble => 0x40
  | .derive => 0x41

/-- The opcode a byte stands for; all 8 bits select it, and the 248 bytes not listed are reserved (30_encoding.md R73, R78). -/
def Opcode.ofByte (b : Byte) : Option Opcode :=
  if b = 0x10 then some .shaInit
  else if b = 0x11 then some .shaUpdate
  else if b = 0x12 then some .shaFinal
  else if b = 0x20 then some .crc8
  else if b = 0x21 then some .snCheck
  else if b = 0x30 then some .mac
  else if b = 0x40 then some .scramble
  else if b = 0x41 then some .derive
  else none

/-- The packet formats (30_encoding.md R71). -/
inductive Format
  /-- no operand -/
  | z
  /-- variable data -/
  | v
  /-- an initial value and variable data -/
  | iv
  /-- fields of fixed lengths -/
  | f (fields : List Nat)
deriving DecidableEq, Repr

/-- The format of each command (30_encoding.md R73). -/
def Opcode.format : Opcode → Format
  | .shaInit => .z
  | .shaUpdate => .v
  | .shaFinal => .z
  | .crc8 => .iv
  | .snCheck => .f [8]
  | .mac => .f [56, 16]
  | .scramble => .f [20]
  | .derive => .f [8, 64, 8]

/-- The required packet length `L` of a format: exact for `Z` and `F`, a minimum for `V` and `IV` (30_encoding.md R71, R77). -/
def Format.required : Format → Nat
  | .z => 1
  | .v => 1
  | .iv => 2
  | .f fields => 1 + fields.sum

/-- The formats for which a packet longer than `L` is refused (30_encoding.md R77). -/
def Format.exact : Format → Bool
  | .z => true
  | .v => false
  | .iv => false
  | .f _ => true

/-! ## The decoder -/

/-- A payload of `n` bytes is longer than `MAX_PAYLOAD` allows (30_encoding.md R70, R77). The first test is a shortcut that
changes no answer, a bound being never below 80: it lets the kernel decode a short packet without asking what `MAX_PAYLOAD` is
(log 4). -/
def PayloadLimit.exceeded (limit : PayloadLimit) (n : Nat) : Bool :=
  if n ≤ 80 then false
  else
    match limit.bound with
    | none => false
    | some m => decide (m < n)

/-- The byte string of length `n` that a list begins with. A list that is too short is filled up with zero bytes, which no use
of this function in the model meets (log 19). -/
def Bytes.ofList (n : Nat) (l : List Byte) : Bytes n :=
  ⟨((List.range n).map (fun i => l.getD i 0)).toArray, by simp⟩

/-- The field of `n` bytes that follows the first `off` operand bytes (30_encoding.md R71, R72). -/
def operandField (off n : Nat) (operands : List Byte) : Bytes n :=
  Bytes.ofList n (operands.drop off)

/-- Operand assembly: the command of an opcode with its fields, taken verbatim from the operand bytes `p[1..]`
(30_encoding.md R72, R73). -/
def assemble (op : Opcode) (operands : List Byte) : Instr :=
  match op with
  | .shaInit => .shaInit
  | .shaUpdate => .shaUpdate operands
  | .shaFinal => .shaFinal
  | .crc8 => .crc8 (operands.getD 0 0) (operands.drop 1)
  | .snCheck => .snCheck (operandField 0 8 operands)
  | .mac => .mac (operandField 0 56 operands) (operandField 56 16 operands)
  | .scramble => .scramble (operandField 0 20 operands)
  | .derive => .derive (operandField 0 8 operands) (operandField 8 64 operands) (operandField 72 8 operands)

/-- Why decode refuses a packet, by name (30_encoding.md R77; 60_exceptions.md R201). -/
inductive PacketError
  /-- `ERR_ABSENT`: the packet is empty, or shorter than its format requires -/
  | absent
  /-- `ERR_ILLEGAL`: the opcode is reserved, or the packet is longer than its format or `MAX_PAYLOAD` allows -/
  | illegal
deriving DecidableEq, Repr

/-- The status that reports a refused packet (30_encoding.md R75, R77). -/
def PacketError.status : PacketError → Status
  | .absent => .errAbsent
  | .illegal => .errIllegal

/-- What a packet decodes to: exactly one of a command or a refusal (30_encoding.md R77). -/
inductive Decoded
  | command (i : Instr)
  | refused (e : PacketError)
deriving DecidableEq, Repr

/-- `decode(p)` under a payload limit: the checks of 30_encoding.md R77 in its order. -/
def decodeWith (limit : PayloadLimit) (p : Packet) : Decoded :=
  match p with
  | [] => .refused .absent
  | b :: operands =>
    match Opcode.ofByte b with
    | none => .refused .illegal
    | some op =>
      if limit.exceeded operands.length then .refused .illegal
      else if operands.length + 1 < op.format.required then .refused .absent
      else if op.format.exact && decide (op.format.required < operands.length + 1) then .refused .illegal
      else .command (assemble op operands)

/-- `decode(p)` of this hardware: it reads only the packet and the constant `MAX_PAYLOAD` (30_encoding.md R78). -/
def decode (p : Packet) : Decoded :=
  decodeWith Config.maxPayload p

/-! ## The encoder -/

/-- The opcode of a command. -/
def Instr.opcode : Instr → Opcode
  | .shaInit => .shaInit
  | .shaUpdate _ => .shaUpdate
  | .shaFinal => .shaFinal
  | .crc8 _ _ => .crc8
  | .snCheck _ => .snCheck
  | .mac _ _ => .mac
  | .scramble _ => .scramble
  | .derive _ _ _ => .derive

/-- The operand bytes of a command's packet, in packet order (30_encoding.md R71, R73). -/
def Instr.operandBytes : Instr → List Byte
  | .shaInit => []
  | .shaUpdate data => data
  | .shaFinal => []
  | .crc8 init data => init :: data
  | .snCheck serial => serial.toList
  | .mac message secret => message.toList ++ secret.toList
  | .scramble digest => digest.toList
  | .derive deviceMac userData serial => deviceMac.toList ++ userData.toList ++ serial.toList

/-- The packet of a command (30_encoding.md R70 to R73). -/
def encode (i : Instr) : Packet :=
  i.opcode.byte :: i.operandBytes

/-! ## Words of the opcode table as packets -/

/-- The low `nbits` of `w` as bytes, the least significant byte first: the opcode table numbers bit 0 as the least significant
bit of the first byte. -/
def bytesOfBits (nbits w : Nat) : List Byte :=
  (List.range (nbits / 8)).map (fun i => BitVec.ofNat 8 (w >>> (8 * i)))

/-- The required packet length of the format that a packet's first byte names; the packet's own length where the byte names
none (30_encoding.md R77). -/
def requiredLength (p : Packet) : Nat :=
  match p.head?.bind Opcode.ofByte with
  | none => p.length
  | some op => op.format.required

/-- The packet of an opcode-table word: its bytes, then operand bytes of zero up to the length the format requires (the table
gives the operands no bits). For the variable formats this is the shortest legal packet (log 13). -/
def packetOfBits (nbits w : Nat) : Packet :=
  let p := bytesOfBits nbits w
  p ++ List.replicate (requiredLength p - p.length) 0

/-- The command that the decoder reads from an opcode-table word; none where it refuses. -/
def decodeTableWord (nbits w : Nat) : Option Instr :=
  match decode (packetOfBits nbits w) with
  | .command i => some i
  | .refused _ => none

end Sys2Proof
end

