-- ==== Sys2Proof/Machine/Params.lean ====
section
/-! DEFINITION. The fixed parameters of the block, each at the value the spec gives it and named in this one place
(00_scope.md R6; 93_implementation_defined.md U8), and the scramble table that the configuration selects. -/

namespace Sys2Proof

/-! ## Fixed parameters (00_scope.md R6; 40_sha1_engine_a.md R100, R101; 41_crc8.md R140) -/

/-- `SN_TAG`: the required first byte of a serial number (00_scope.md R6, 41_crc8.md R147). -/
def Config.snTag : Byte := 0x3C

/-- `MAC_LEN_FIELD`: the bit length that Engine B forces into word 15, 440 (00_scope.md R6, 42_sha1_engine_b.md R161). -/
def Config.macLenField : Word := 0x000001B8

/-- `MAC_SECRET_WORDS`: the two block words that secret bytes overwrite (00_scope.md R6, 42_sha1_engine_b.md R162). -/
def Config.macSecretWord0 : Nat := 0

@[inherit_doc Config.macSecretWord0]
def Config.macSecretWord1 : Nat := 12

/-- The initial hash constants `IV[0..4]` (40_sha1_engine_a.md R100; the spec supplies them from general knowledge, log 16). -/
def Config.iv : HashWords :=
  { a := 0x67452301, b := 0xEFCDAB89, c := 0x98BADCFE, d := 0x10325476, e := 0xC3D2E1F0 }

/-- The round constant `K(t)`, one for each phase of 20 rounds (40_sha1_engine_a.md R101; log 16). -/
def Config.roundConstant (t : Nat) : Word :=
  if t < 20 then 0x5A827999
  else if t < 40 then 0x6ED9EBA1
  else if t < 60 then 0x8F1BBCDC
  else 0xCA62C1D6

/-- `CRC8_POLY` with the least significant bit as the highest power (41_crc8.md R140). -/
def Config.crcMaskLsb : Byte := 0x8C

/-- `CRC8_POLY` with the most significant bit as the highest power (41_crc8.md R140). -/
def Config.crcMaskMsb : Byte := 0x31

/-! ## The selected table -/

/-- The table in use: `SCRAMBLE_TABLE_A` for variant A, `SCRAMBLE_TABLE_B` for variant B (43_derive_scramble.md R181). -/
def selectTable (v : ScrambleVariant) (tableA tableB : ScrambleTable) : ScrambleTable :=
  match v with
  | .variantA => tableA
  | .variantB => tableB

/-- `TBL` of this hardware (43_derive_scramble.md R181). -/
def Config.table : ScrambleTable :=
  selectTable Config.scrambleVariant Config.scrambleTableA Config.scrambleTableB

end Sys2Proof
end

