-- ==== Sys2Proof/Machine/State.lean ====
section
/-! DEFINITION. The state of the block (10_state.md R21 to R26) with the two ends of its command port, the reasons a step
could stop, and the state after reset (R34). All of it is plain data. -/

namespace Sys2Proof.Machine

/-- `ctx.err`, the sticky error cause: a 2-bit field that holds 0, 2 or 3 and never 1 (10_state.md R26; log 9). -/
inductive CtxErr
  /-- 0: not corrupted -/
  | clear
  /-- 2, `TOO_LONG`: the bit-length counter overflowed -/
  | tooLong
  /-- 3, `SEQUENCE`: input after final -/
  | sequence
deriving DecidableEq, Repr

/-- The Digest Context of Engine A, the block's one piece of storage (10_state.md R21 to R26). -/
structure Ctx where
  /-- `H[0..4]`, the intermediate hash state (R21) -/
  h : HashWords
  /-- `buf[0..63]`, the pending-block buffer (R22) -/
  buf : Bytes 64
  /-- the buffer fill index, 0 to 63 between commands (R23; log 8) -/
  idx : Nat
  /-- the high half of the message bit length (R24) -/
  lenHi : Word
  /-- the low half of the message bit length (R24) -/
  lenLo : Word
  /-- the digest has been extracted (R25) -/
  finalized : Bool
  /-- the sticky error cause (R26) -/
  err : CtxErr
deriving DecidableEq, Repr

/-- The machine's state: the context, and the two ends of the command port, which are the host's data and which a step of one
argument must carry (10_state.md R31 to R33; log 5). -/
structure State where
  /-- the Digest Context -/
  ctx : Ctx
  /-- the host's command stream: the packets not yet decoded, the next one first -/
  input : List Packet
  /-- the responses produced so far, the oldest first; no command reads it (R32) -/
  output : List Packet
deriving DecidableEq, Repr

/-- The faults of the machine: there are none. "No command traps, faults, halts the block or diverts control"
(60_exceptions.md R200; log 15), so no constructor is needed and nothing can raise one, which is what the spec says. -/
inductive Fault
deriving DecidableEq, Repr

/-- Why a step could be refused. -/
inductive Refusal
  /-- `exec` has no meaning for a command of this mnemonic. It would be raised by `exec` alone; every command has its meaning,
  so nothing raises it. Safe: a machine that stops proves nothing false. -/
  | notModelled (mnemonic : String)
deriving DecidableEq, Repr

/-- Every field of the context zero (10_state.md R34). -/
def Ctx.zero : Ctx :=
  { h := { a := 0, b := 0, c := 0, d := 0, e := 0 }
    buf := Vector.replicate 64 0
    idx := 0
    lenHi := 0
    lenLo := 0
    finalized := false
    err := .clear }

/-- The state right after reset: every field of the context zero, no packet sent yet, no response pending
(10_state.md R34; 70_reset_and_hazards.md R231). The hash state is zero, not the initial constants. -/
def State.reset : State :=
  { ctx := Ctx.zero, input := [], output := [] }

end Sys2Proof.Machine
end

