-- ==== Sys2Proof/Machine/Ops.lean ====
section
/-! DEFINITION. The named operations: rotation and byte order (00_scope.md R10, R11), the command port (30_encoding.md R70,
R74), taking an error and returning from one (60_exceptions.md R204, R205), and the single-byte store into the pending-block
buffer. -/

namespace Sys2Proof.Machine

/-! ## Words and bytes -/

/-- `rotl(x, n)`, rotate left, for `0 < n < 32` (00_scope.md R10). -/
def rotl (x : Word) (n : Nat) : Word :=
  (x <<< n) ||| (x >>> (32 - n))

/-- `BE32(b0, b1, b2, b3)`: four bytes as a word, the first the most significant (00_scope.md R11). -/
def be32 (b0 b1 b2 b3 : Byte) : Word :=
  b0 ++ b1 ++ b2 ++ b3

/-- `BEbytes(w)`: the four bytes of a word, highest first (00_scope.md R11). -/
def beBytes (w : Word) : List Byte :=
  [w.extractLsb' 24 8, w.extractLsb' 16 8, w.extractLsb' 8 8, w.extractLsb' 0 8]

/-- `LEbytes(w)`: the four bytes of a word, lowest first (00_scope.md R11). -/
def leBytes (w : Word) : List Byte :=
  [w.extractLsb' 0 8, w.extractLsb' 8 8, w.extractLsb' 16 8, w.extractLsb' 24 8]

/-- Message bytes to words, big-endian, in both engines (20_memory.md R53). Bytes after the last whole word are left out, which
no use in the model meets (log 19). -/
def wordsOfBytes : List Byte → List Word
  | b0 :: b1 :: b2 :: b3 :: rest => be32 b0 b1 b2 b3 :: wordsOfBytes rest
  | _ => []

/-- Word by word addition modulo 2^32 (40_sha1_engine_a.md R105). -/
def addWords (x y : HashWords) : HashWords :=
  { a := x.a + y.a, b := x.b + y.b, c := x.c + y.c, d := x.d + y.d, e := x.e + y.e }

/-- Engine A's emission of five words: big-endian per word, ascending (40_sha1_engine_a.md R112; 20_memory.md R55). -/
def digestBytes (h : HashWords) : List Byte :=
  beBytes h.a ++ beBytes h.b ++ beBytes h.c ++ beBytes h.d ++ beBytes h.e

/-- Engine B's emission of five words: little-endian per word, descending (42_sha1_engine_b.md R164; 20_memory.md R56). -/
def macBytes (r : HashWords) : List Byte :=
  leBytes r.e ++ leBytes r.d ++ leBytes r.c ++ leBytes r.b ++ leBytes r.a

/-! ## The command port -/

/-- The code of a status (30_encoding.md R75). -/
def statusCode : Status → Byte
  | .ok => 0x00
  | .errAbsent => 0x01
  | .errTooLong => 0x02
  | .errSequence => 0x03
  | .errIllegal => 0x04

/-- The status a sticky error cause stands for: the values of `ctx.err` are status codes (10_state.md R26; 30_encoding.md R75). -/
def CtxErr.status : CtxErr → Status
  | .clear => .ok
  | .tooLong => .errTooLong
  | .sequence => .errSequence

/-- The value the 2-bit field `ctx.err` holds for a cause (10_state.md R26). -/
def CtxErr.code : CtxErr → BitVec 2
  | .clear => 0
  | .tooLong => 2
  | .sequence => 3

/-- `(status, result)`, what every command ends in (00_scope.md R13). -/
structure Reply where
  status : Status
  result : List Byte
deriving DecidableEq, Repr

/-- The response packet of a reply: the status byte, then the result if the status is `OK`; an error response never carries
result bytes (30_encoding.md R74). -/
def Reply.packet (r : Reply) : Packet :=
  match r.status with
  | .ok => statusCode .ok :: r.result
  | st => [statusCode st]

/-- The packet at the head of the host's command stream, if one waits (10_state.md R20). -/
def State.nextPacket (s : State) : Option Packet :=
  s.input.head?

/-- The head packet is taken from the stream: one packet per step (30_encoding.md R70). -/
def State.consume (s : State) : State :=
  { s with input := s.input.tail }

/-- A command completes: the context it leaves, and its one response (30_encoding.md R74). -/
def State.complete (s : State) (c : Ctx) (r : Reply) : State :=
  { s with ctx := c, output := s.output ++ [r.packet] }

/-! ## Taking an error and returning from one -/

/-- "Trap entry" for a sticky error: `ctx.err` is written, nothing is saved and nothing else changes
(60_exceptions.md R204). -/
def Ctx.raise (c : Ctx) (e : CtxErr) : Ctx :=
  { c with err := e }

/-- "Trap return", the only way out of the corrupted and the finalized states: the context that `SHA_INIT` leaves whatever it
was before (60_exceptions.md R205; 40_sha1_engine_a.md R107). -/
def Ctx.fresh : Ctx :=
  { h := Config.iv
    buf := Vector.replicate 64 0
    idx := 0
    lenHi := 0
    lenLo := 0
    finalized := false
    err := .clear }

/-- A packet that decode refuses: its status is the whole response, the context stays as it is (30_encoding.md R77). -/
def State.refusePacket (s : State) (e : PacketError) : State :=
  s.complete s.ctx { status := e.status, result := [] }

/-! ## The pending-block buffer -/

/-- `ctx.buf[ctx.idx] <- v; ctx.idx <- ctx.idx + 1` (40_sha1_engine_a.md R108, R110). An index beyond the buffer, which no
reachable state has (10_state.md R27), stores nothing (log 8). -/
def Ctx.storeByte (c : Ctx) (v : Byte) : Ctx :=
  { c with buf := c.buf.setIfInBounds c.idx v, idx := c.idx + 1 }

/-- `n` times `ctx.buf[ctx.idx] <- 0x00; ctx.idx <- ctx.idx + 1`. -/
def Ctx.storeZeros : Nat → Ctx → Ctx
  | 0, c => c
  | n + 1, c => Ctx.storeZeros n (c.storeByte 0x00)

/-- `while ctx.idx < limit: ctx.buf[ctx.idx] <- 0x00; ctx.idx <- ctx.idx + 1` (40_sha1_engine_a.md R110). -/
def Ctx.zeroFillTo (limit : Nat) (c : Ctx) : Ctx :=
  Ctx.storeZeros (limit - c.idx) c

/-- `buf[at..] <- bytes`, byte after byte (40_sha1_engine_a.md R110). -/
def setBufferBytes (buf : Bytes 64) (at0 : Nat) : List Byte → Bytes 64
  | [] => buf
  | v :: vs => setBufferBytes (buf.setIfInBounds at0 v) (at0 + 1) vs

/-- `buf[56..59] <- BEbytes(len_hi); buf[60..63] <- BEbytes(len_lo)` (40_sha1_engine_a.md R110; 20_memory.md R54). -/
def Ctx.storeLengthField (c : Ctx) : Ctx :=
  { c with buf := setBufferBytes (setBufferBytes c.buf 56 (beBytes c.lenHi)) 60 (beBytes c.lenLo) }

end Sys2Proof.Machine
end

