-- ==== Sys2Proof/Machine/CrcUnit.lean ====
section
/-! DEFINITION. The CRC-8 Checker and the serial-number gate: `CRC8`, `SN_CHECK` (41_crc8.md). The bit order is an argument of
every function; the meanings give it the configuration's. -/

namespace Sys2Proof.Machine

/-- One of the eight shifts that make a table entry (41_crc8.md R141). -/
def crcShift (order : Crc8Order) (c : Byte) : Byte :=
  match order with
  | .lsbFirst => if c.getLsbD 0 then (c >>> 1) ^^^ Config.crcMaskLsb else c >>> 1
  | .msbFirst => if c.getLsbD 7 then (c <<< 1) ^^^ Config.crcMaskMsb else c <<< 1

/-- `n` shifts. -/
def crcShifts (order : Crc8Order) : Nat → Byte → Byte
  | 0, c => c
  | n + 1, c => crcShifts order n (crcShift order c)

/-- `T[i]`, the table entry of index `i` (41_crc8.md R141; listed whole in R142 and R143). -/
def crcTable (order : Crc8Order) (i : Byte) : Byte :=
  crcShifts order 8 i

/-- `crc8(init, s)`: one table lookup and XOR per byte, in string order (41_crc8.md R144). -/
def crc8 (order : Crc8Order) (init : Byte) : List Byte → Byte
  | [] => init
  | v :: vs => crc8 order (crcTable order (init ^^^ v)) vs

/-- The serial-number gate: the tag byte and a zero CRC over all 8 bytes, from initial value 0 (41_crc8.md R147). -/
def serialAccepted (order : Crc8Order) (serial : Bytes 8) : Bool :=
  decide (serial[0] = Config.snTag) && decide (crc8 order 0x00 serial.toList = 0x00)

/-- The reply of `CRC8 init, data` (41_crc8.md R145). -/
def crc8Reply (order : Crc8Order) (init : Byte) (data : List Byte) : Reply :=
  { status := .ok, result := [crc8 order init data] }

/-- The reply of `SN_CHECK serial`: a rejection is a result, not an error (41_crc8.md R147; 30_encoding.md R76). -/
def snCheckReply (order : Crc8Order) (serial : Bytes 8) : Reply :=
  { status := .ok, result := [if serialAccepted order serial then 0x01 else 0x00] }

/-- `CRC8 init, data` (41_crc8.md R145): no state is read or written. -/
def execCrc8 (init : Byte) (data : List Byte) (s : State) : Host.Outcome State Fault Refusal :=
  .next (s.complete s.ctx (crc8Reply Config.crc8Order init data))

/-- `SN_CHECK serial` (41_crc8.md R147): no state is read or written. -/
def execSnCheck (serial : Bytes 8) (s : State) : Host.Outcome State Fault Refusal :=
  .next (s.complete s.ctx (snCheckReply Config.crc8Order serial))

end Sys2Proof.Machine
end

