-- ==== Sys2Proof/Machine/Compress.lean ====
section
/-! DEFINITION. The compression transform that both engines share (40_sha1_engine_a.md R101 to R106). The formulas are the
spec's, which supplies them from general knowledge of RFC 3174 (log 16). -/

namespace Sys2Proof.Machine

/-- The choose function: each bit of `b` chooses between `c` and `d` (40_sha1_engine_a.md R102, 90_conflicts.md C5). -/
def chooseWord (b c d : Word) : Word :=
  (b &&& c) ||| (~~~b &&& d)

/-- The parity function (40_sha1_engine_a.md R102). -/
def parityWord (b c d : Word) : Word :=
  b ^^^ c ^^^ d

/-- The majority function (40_sha1_engine_a.md R102). -/
def majorityWord (b c d : Word) : Word :=
  (b &&& c) ||| (b &&& d) ||| (c &&& d)

/-- `f(t, B, C, D)`, one round function for each phase of 20 rounds (40_sha1_engine_a.md R102). -/
def roundFunction (t : Nat) (b c d : Word) : Word :=
  if t < 20 then chooseWord b c d
  else if t < 40 then parityWord b c d
  else if t < 60 then majorityWord b c d
  else parityWord b c d

/-- `W[t]` from the words before it: `rotl(W[t-3] ^ W[t-8] ^ W[t-14] ^ W[t-16], 1)` (40_sha1_engine_a.md R103). -/
def scheduleWord (w : List Word) (t : Nat) : Word :=
  rotl (w.getD (t - 3) 0 ^^^ w.getD (t - 8) 0 ^^^ w.getD (t - 14) 0 ^^^ w.getD (t - 16) 0) 1

/-- `n` more schedule words, in ascending `t` (40_sha1_engine_a.md R103). -/
def extendSchedule : Nat → List Word → List Word
  | 0, w => w
  | n + 1, w => extendSchedule n (w ++ [scheduleWord w w.length])

/-- The schedule of a block's 16 words: 80 words (40_sha1_engine_a.md R103). -/
def schedule (m : List Word) : List Word :=
  extendSchedule 64 m

/-- Compression round `t` with schedule word `w`: all sources are the old registers (40_sha1_engine_a.md R104). -/
def compressionRound (t : Nat) (w : Word) (s : HashWords) : HashWords :=
  { a := rotl s.a 5 + roundFunction t s.b s.c s.d + s.e + w + Config.roundConstant t
    b := s.a
    c := rotl s.b 30
    d := s.c
    e := s.d }

/-- The rounds from round `t` on, one for each remaining schedule word. -/
def roundsFrom : Nat → HashWords → List Word → HashWords
  | _, s, [] => s
  | t, s, w :: ws => roundsFrom (t + 1) (compressionRound t w s) ws

/-- `Rounds(S, W)`: rounds 0 to 79 (40_sha1_engine_a.md R104). -/
def rounds (s : HashWords) (w : List Word) : HashWords :=
  roundsFrom 0 s w

/-- `Compress(S, b)`: the rounds over the schedule of the block `b`, added back into `S` (40_sha1_engine_a.md R105). -/
def compress (s : HashWords) (block : List Byte) : HashWords :=
  addWords s (rounds s (schedule (wordsOfBytes block)))

/-- `ProcessBlock`: the buffer is compressed into `H` and the fill index becomes 0; the buffer, the length and the flags stay
(40_sha1_engine_a.md R106). -/
def Ctx.processBlock (c : Ctx) : Ctx :=
  { c with h := compress c.h c.buf.toList, idx := 0 }

end Sys2Proof.Machine
end

