-- ==== Sys2Proof/Machine/Flags.lean ====
section
/-! DEFINITION. The flag computations: the 64-bit bit-length counter with its carry, and the overflow that sets `ctx.err`
(40_sha1_engine_a.md R108). -/

namespace Sys2Proof.Machine

/-- The counted bit length, `len_hi * 2^32 + len_lo` (10_state.md R24). -/
def Ctx.bitLength (c : Ctx) : Nat :=
  c.lenHi.toNat * 2 ^ 32 + c.lenLo.toNat

/-- `corrupted` is `ctx.err != 0` (10_state.md R26). -/
def Ctx.corrupted (c : Ctx) : Bool :=
  decide (c.err ≠ .clear)

/-- One accepted byte is counted: 8 bits on the low half; if that half wraps to 0 the high half increments; if that wraps too,
the context becomes corrupted, `ctx.err <- 2` (40_sha1_engine_a.md R108). -/
def Ctx.countByte (c : Ctx) : Ctx :=
  let lo := c.lenLo + 8
  if lo = 0 then
    let hi := c.lenHi + 1
    if hi = 0 then ({ c with lenLo := lo, lenHi := hi } : Ctx).raise .tooLong
    else { c with lenLo := lo, lenHi := hi }
  else { c with lenLo := lo }

end Sys2Proof.Machine
end

