-- ==== Sys2Proof/Machine/EngineA.lean ====
section
/-! DEFINITION. Hash Engine A: `SHA_INIT`, `SHA_UPDATE`, `SHA_FINAL` (40_sha1_engine_a.md R107 to R112). Each command is first a
function of the context, giving the context it leaves and its reply, since `DERIVE` performs all three. -/

namespace Sys2Proof.Machine

/-! ## SHA_INIT -/

/-- `SHA_INIT` succeeds from every context and reads none of it (40_sha1_engine_a.md R107). -/
def shaInit (_c : Ctx) : Ctx × Reply :=
  (Ctx.fresh, { status := .ok, result := [] })

/-! ## SHA_UPDATE -/

/-- `AcceptByte(v)`: store, count, and compress when the buffer is full, in this order (40_sha1_engine_a.md R108; log 11). -/
def acceptByte (v : Byte) (c : Ctx) : Ctx :=
  let counted := (c.storeByte v).countByte
  if counted.idx = 64 then counted.processBlock else counted

/-- The loop of `SHA_UPDATE`: bytes in order, stopping after one that corrupts the context (40_sha1_engine_a.md R109). -/
def acceptBytes : List Byte → Ctx → Ctx
  | [], c => c
  | v :: vs, c =>
    let c' := acceptByte v c
    if c'.corrupted then c' else acceptBytes vs c'

/-- `SHA_UPDATE data`: input after final is a sequence error and corrupts the context; a corrupted context rejects the input
with its sticky status; otherwise the bytes are accepted (40_sha1_engine_a.md R109; 60_exceptions.md R203). -/
def shaUpdate (data : List Byte) (c : Ctx) : Ctx × Reply :=
  if c.finalized then (c.raise .sequence, { status := .errSequence, result := [] })
  else if c.corrupted then (c, { status := c.err.status, result := [] })
  else
    let c' := acceptBytes data c
    (c', { status := c'.err.status, result := [] })

/-! ## SHA_FINAL -/

/-- `Pad`: the byte `0x80`, zeros, the length field, and one or two compressions (40_sha1_engine_a.md R110). -/
def Ctx.pad (c : Ctx) : Ctx :=
  let filled :=
    if 55 < c.idx then (((c.storeByte 0x80).zeroFillTo 64).processBlock).zeroFillTo 56
    else (c.storeByte 0x80).zeroFillTo 56
  filled.storeLengthField.processBlock

/-- The first successful `SHA_FINAL`: pad, clear the buffer and the length, mark finalized (40_sha1_engine_a.md R111). -/
def Ctx.close (c : Ctx) : Ctx :=
  { c.pad with buf := Vector.replicate 64 0, lenHi := 0, lenLo := 0, finalized := true }

/-- `SHA_FINAL`: a corrupted context fails with its sticky status; otherwise the message is closed if it still is open, and the
digest is emitted (40_sha1_engine_a.md R111, R112). -/
def shaFinal (c : Ctx) : Ctx × Reply :=
  if c.corrupted then (c, { status := c.err.status, result := [] })
  else
    let c' := if c.finalized then c else c.close
    (c', { status := .ok, result := digestBytes c'.h })

/-! ## The meanings -/

/-- `SHA_INIT` (40_sha1_engine_a.md R107). -/
def execShaInit (s : State) : Host.Outcome State Fault Refusal :=
  .next (s.complete (shaInit s.ctx).1 (shaInit s.ctx).2)

/-- `SHA_UPDATE data` (40_sha1_engine_a.md R109). -/
def execShaUpdate (data : List Byte) (s : State) : Host.Outcome State Fault Refusal :=
  .next (s.complete (shaUpdate data s.ctx).1 (shaUpdate data s.ctx).2)

/-- `SHA_FINAL` (40_sha1_engine_a.md R111). -/
def execShaFinal (s : State) : Host.Outcome State Fault Refusal :=
  .next (s.complete (shaFinal s.ctx).1 (shaFinal s.ctx).2)

end Sys2Proof.Machine
end

