-- ==== Sys2Proof/Machine/Operands.lean ====
section
/-! DEFINITION. What the units make of their operand bytes beyond taking them verbatim (30_encoding.md R72; Decode.lean takes
them): Engine B's block (42_sha1_engine_b.md R160 to R162), the bytes that `DERIVE` hashes (43_derive_scramble.md R185), and the
truncation of a digest to the scramble vector (R182). -/

namespace Sys2Proof.Machine

/-- Words 0 to 13 of Engine B's block: all 56 message bytes, framed big-endian (42_sha1_engine_b.md R160; log 17). -/
def macMessageWords (message : Bytes 56) : List Word :=
  wordsOfBytes message.toList

/-- The block before the secret enters it: words 14 and 15 are forced to the 440-bit length (42_sha1_engine_b.md R161). -/
def macPaddedWords (message : Bytes 56) : List Word :=
  macMessageWords message ++ [0, Config.macLenField]

/-- `M[0..15]`: the first four secret bytes overwrite word 0, the next four word 12, big-endian; the last eight are never read
(42_sha1_engine_b.md R162; log 17). -/
def macBlockWords (message : Bytes 56) (secret : Bytes 16) : List Word :=
  ((macPaddedWords message).set Config.macSecretWord0 (be32 secret[0] secret[1] secret[2] secret[3])).set
    Config.macSecretWord1 (be32 secret[4] secret[5] secret[6] secret[7])

/-- `device_mac || user_data || serial`, 80 bytes (43_derive_scramble.md R185). -/
def deriveMessage (deviceMac : Bytes 8) (userData : Bytes 64) (serial : Bytes 8) : List Byte :=
  deviceMac.toList ++ userData.toList ++ serial.toList

/-- `x[i] <- digest[i]` for `i = 0..15`; `digest[16..19]` are dropped (43_derive_scramble.md R182; log 17). -/
def scrambleVector (digest : Bytes 20) : Bytes 16 :=
  Bytes.ofList 16 digest.toList

end Sys2Proof.Machine
end

