-- ==== Sys2Proof/Machine/EngineB.lean ====
section
/-! DEFINITION. Hash Engine B: `MAC` (42_sha1_engine_b.md R160 to R166). The add-back is an argument of every function; the meaning
gives it the configuration's. -/

namespace Sys2Proof.Machine

/-- The working registers after round 79, from the initial hash constants (42_sha1_engine_b.md R163). -/
def macRounds (message : Bytes 56) (secret : Bytes 16) : HashWords :=
  rounds Config.iv (schedule (macBlockWords message secret))

/-- `R[0..4]`: with the initial constants added back if `MAC_FEEDFORWARD`, else the working registers themselves
(42_sha1_engine_b.md R163). -/
def macWords (feedforward : Bool) (message : Bytes 56) (secret : Bytes 16) : HashWords :=
  if feedforward then addWords Config.iv (macRounds message secret) else macRounds message secret

/-- The reply of `MAC message, secret` (42_sha1_engine_b.md R164, R165). -/
def macReply (feedforward : Bool) (message : Bytes 56) (secret : Bytes 16) : Reply :=
  { status := .ok, result := macBytes (macWords feedforward message secret) }

/-- `MAC message, secret` (42_sha1_engine_b.md R165): `ctx` is neither read nor written (R166). -/
def execMac (message : Bytes 56) (secret : Bytes 16) (s : State) : Host.Outcome State Fault Refusal :=
  .next (s.complete s.ctx (macReply Config.macFeedforward message secret))

end Sys2Proof.Machine
end

