-- ==== Sys2Proof/Machine/Scrambler.lean ====
section
/-! DEFINITION. Secret Derivation and Scrambler: `SCRAMBLE`, `DERIVE` (43_derive_scramble.md R182 to R187). The table is an
argument of every function; the meanings give it the configuration's. -/

namespace Sys2Proof.Machine

/-- `x[d] <- x[d] ^ x[s]` (43_derive_scramble.md R182). -/
def scramblePair (x : Bytes 16) (p : ScramblePair) : Bytes 16 :=
  x.set p.dst.val (x[p.dst.val] ^^^ x[p.src.val]) p.dst.isLt

/-- The XORs of a list of pairs, in place and in list order; defined for every list, well-formed or not
(43_derive_scramble.md R182). -/
def scramblePairs (pairs : List ScramblePair) (x : Bytes 16) : Bytes 16 :=
  pairs.foldl scramblePair x

/-- `Scramble(digest)`: the 16-byte CRP (43_derive_scramble.md R182). -/
def scrambleDigest (table : ScrambleTable) (digest : Bytes 20) : Bytes 16 :=
  scramblePairs table.pairs (scrambleVector digest)

/-- The reply of `SCRAMBLE digest` (43_derive_scramble.md R184). -/
def scrambleReply (table : ScrambleTable) (digest : Bytes 20) : Reply :=
  { status := .ok, result := (scrambleDigest table digest).toList }

/-- The three Engine A commands that `DERIVE` performs, without their responses: the context they leave, and the reply of the
last of them (43_derive_scramble.md R185). -/
def deriveHash (deviceMac : Bytes 8) (userData : Bytes 64) (serial : Bytes 8) (c : Ctx) : Ctx × Reply :=
  shaFinal (shaUpdate (deriveMessage deviceMac userData serial) (shaInit c).1).1

/-- `DERIVE device_mac, user_data, serial` as a function of the context: the first 8 bytes of the scrambled digest
(43_derive_scramble.md R185). -/
def derive (table : ScrambleTable) (deviceMac : Bytes 8) (userData : Bytes 64) (serial : Bytes 8) (c : Ctx) : Ctx × Reply :=
  let hashed := deriveHash deviceMac userData serial c
  let crp := scrambleDigest table (Bytes.ofList 20 hashed.2.result)
  (hashed.1, { status := .ok, result := crp.toList.take 8 })

/-- `SCRAMBLE digest` (43_derive_scramble.md R184): no state is read or written. -/
def execScramble (digest : Bytes 20) (s : State) : Host.Outcome State Fault Refusal :=
  .next (s.complete s.ctx (scrambleReply Config.table digest))

/-- `DERIVE device_mac, user_data, serial` (43_derive_scramble.md R185). -/
def execDerive (deviceMac : Bytes 8) (userData : Bytes 64) (serial : Bytes 8) (s : State) :
    Host.Outcome State Fault Refusal :=
  .next (s.complete (derive Config.table deviceMac userData serial s.ctx).1
    (derive Config.table deviceMac userData serial s.ctx).2)

end Sys2Proof.Machine
end

