-- ==== Sys2Proof/Machine/Dispatch.lean ====
section
/-! DEFINITION. The meaning of every command, one arm for each constructor of `Instr`. -/

namespace Sys2Proof.Machine

def exec (i : Instr) (s : State) : Host.Outcome State Fault Refusal :=
  match i with
  | .shaInit => Sys2Proof.Machine.execShaInit s
  | .shaUpdate data => Sys2Proof.Machine.execShaUpdate data s
  | .shaFinal => Sys2Proof.Machine.execShaFinal s
  | .crc8 init data => Sys2Proof.Machine.execCrc8 init data s
  | .snCheck serial => Sys2Proof.Machine.execSnCheck serial s
  | .mac message secret => Sys2Proof.Machine.execMac message secret s
  | .scramble digest => Sys2Proof.Machine.execScramble digest s
  | .derive deviceMac userData serial => Sys2Proof.Machine.execDerive deviceMac userData serial s

end Sys2Proof.Machine
end

