-- ==== Sys2Proof/Machine/Step.lean ====
section
/-! DEFINITION. One step of the block: take the packet at the head of the command stream, decode it, and execute it or refuse
it; either way exactly one response (10_state.md R20; 30_encoding.md R70, R74, R77). -/

namespace Sys2Proof.Machine

/-- One step. With no packet waiting the block is idle and keeps its state (60_exceptions.md R208; log 6). -/
def step (s : State) : Host.Outcome State Fault Refusal :=
  match s.nextPacket with
  | none => .next s
  | some p =>
    match decode p with
    | .command i => exec i s.consume
    | .refused e => .next (s.consume.refusePacket e)

/-- The state with the packet of an opcode-table word delivered at the head of the command stream, so that the next step
decodes it (log 7, log 13). -/
def State.withFetchWord (s : State) (nbits w : Nat) : State :=
  { s with input := packetOfBits nbits w :: s.input }

end Sys2Proof.Machine
end

