-- ==== Sys2Proof/Machine/Assembly.lean ====
section
/-! DEFINITION. The textual syntax of commands and responses (30_encoding.md R80) and the pseudo-commands (R81). The block never
sees either: a writer of programs expands them into packets. -/

namespace Sys2Proof.Machine

/-- A command's mnemonic (30_encoding.md R73). -/
def Opcode.mnemonic : Opcode → String
  | .shaInit => "SHA_INIT"
  | .shaUpdate => "SHA_UPDATE"
  | .shaFinal => "SHA_FINAL"
  | .crc8 => "CRC8"
  | .snCheck => "SN_CHECK"
  | .mac => "MAC"
  | .scramble => "SCRAMBLE"
  | .derive => "DERIVE"

/-- A status's name (30_encoding.md R75). -/
def statusName : Status → String
  | .ok => "OK"
  | .errAbsent => "ERR_ABSENT"
  | .errTooLong => "ERR_TOO_LONG"
  | .errSequence => "ERR_SEQUENCE"
  | .errIllegal => "ERR_ILLEGAL"

/-- One hex digit. -/
def hexDigit (n : Nat) : String :=
  ["0", "1", "2", "3", "4", "5", "6", "7", "8", "9", "A", "B", "C", "D", "E", "F"].getD n "?"

/-- A byte as two hex digits (30_encoding.md R80). -/
def hexByte (b : Byte) : String :=
  hexDigit (b.toNat / 16) ++ hexDigit (b.toNat % 16)

/-- Strings with a separator between them. -/
def joinWith (sep : String) : List String → String
  | [] => ""
  | [x] => x
  | x :: y :: rest => x ++ sep ++ joinWith sep (y :: rest)

/-- A byte string as hex digits separated by spaces (30_encoding.md R80). -/
def hexBytes (l : List Byte) : String :=
  joinWith " " (l.map hexByte)

/-- The operands of a command, one byte string each, in packet order (30_encoding.md R73). -/
def Instr.operands : Instr → List (List Byte)
  | .shaInit => []
  | .shaUpdate data => [data]
  | .shaFinal => []
  | .crc8 init data => [[init], data]
  | .snCheck serial => [serial.toList]
  | .mac message secret => [message.toList, secret.toList]
  | .scramble digest => [digest.toList]
  | .derive deviceMac userData serial => [deviceMac.toList, userData.toList, serial.toList]

/-- A command as text: the mnemonic, then the operands separated by commas; an empty operand is not written
(30_encoding.md R80; 95_test_vectors.md V-C5). -/
def Instr.text (i : Instr) : String :=
  let shown := (Instr.operands i).filter (fun o => !o.isEmpty)
  if shown.isEmpty then Opcode.mnemonic i.opcode
  else Opcode.mnemonic i.opcode ++ " " ++ joinWith ", " (shown.map hexBytes)

/-- A reply as text: `-> STATUS result-bytes` (30_encoding.md R80). -/
def Reply.text (r : Reply) : String :=
  if r.result.isEmpty then "-> " ++ statusName r.status
  else "-> " ++ statusName r.status ++ " " ++ hexBytes r.result

/-- `SHA1C d1 / ... / dk`, the chunked digest (30_encoding.md R81). -/
def pseudoSha1C (chunks : List (List Byte)) : List Packet :=
  encode .shaInit :: (chunks.map (fun d => encode (.shaUpdate d)) ++ [encode .shaFinal])

/-- `SHA1 data`, the one-shot digest (30_encoding.md R81). -/
def pseudoSha1 (data : List Byte) : List Packet :=
  [encode .shaInit, encode (.shaUpdate data), encode .shaFinal]

/-- `CRC8Z data`, the CRC from initial value zero (30_encoding.md R81). -/
def pseudoCrc8Z (data : List Byte) : List Packet :=
  [encode (.crc8 0x00 data)]

end Sys2Proof.Machine
end

