-- ==== Sys2Proof/Machine/HostRound.lean ====
section
/-! DEFINITION. The host software that drives the block, as far as the spec describes it (70_reset_and_hazards.md R236 to R243;
60_exceptions.md R209, R212, R213). It is outside the block (00_scope.md R4) and puts no obligation on it; it is here so that
claims about a protocol round can be stated against the block's own step. Transport calls are events, not effects (log 14). -/

namespace Sys2Proof.Machine

/-! ## Outcomes and errors -/

/-- The outcome of one protocol round (60_exceptions.md R212). -/
inductive RoundOutcome
  | authenticated
  | mismatch
  | transportFailed
deriving DecidableEq, Repr

/-- The host's error classes (60_exceptions.md R212). -/
inductive HostError
  | transportError
  | identityInvalid
  | responseMismatch
  | sequenceError
deriving DecidableEq, Repr

/-- The outcome that an error class bubbles up as. `SequenceError` yields one of the two failures; which one the spec does not say
(60_exceptions.md R212, R213; log 21). -/
def HostError.outcome : HostError → RoundOutcome
  | .transportError => .transportFailed
  | .identityInvalid => .mismatch
  | .responseMismatch => .mismatch
  | .sequenceError => if Config.sequenceErrorIsTransportFailed then .transportFailed else .mismatch

/-- The outcome of a round that ended with an error, or with none. -/
def roundOutcome : Option HostError → RoundOutcome
  | none => .authenticated
  | some e => e.outcome

/-- The status a code stands for; no other code is ever produced (30_encoding.md R75). -/
def statusOfCode (b : Byte) : Option Status :=
  if b = 0x00 then some .ok
  else if b = 0x01 then some .errAbsent
  else if b = 0x02 then some .errTooLong
  else if b = 0x03 then some .errSequence
  else if b = 0x04 then some .errIllegal
  else none

/-- The error class of a status; the two decode errors are treated like `SequenceError` (60_exceptions.md R209). -/
def statusHostError : Status → Option HostError
  | .ok => none
  | .errAbsent => some .sequenceError
  | .errTooLong => some .sequenceError
  | .errSequence => some .sequenceError
  | .errIllegal => some .sequenceError

/-- The error class of a response packet to a command: a rejected serial number is `IdentityInvalid`, else the status decides
(60_exceptions.md R209). A response without a status, which the block never gives, is taken for an internal error. -/
def responseHostError (op : Opcode) (r : Packet) : Option HostError :=
  if op = .snCheck ∧ r = [0x00, 0x00] then some .identityInvalid
  else
    match r.head?.bind statusOfCode with
    | some st => statusHostError st
    | none => some .sequenceError

/-- The host's comparison: the OR of the XORs of the bytes of two buffers (70_reset_and_hazards.md R237, R238). -/
def differenceBits : List Byte → List Byte → Byte
  | x :: xs, y :: ys => (x ^^^ y) ||| differenceBits xs ys
  | _, _ => 0

/-- The error class of the comparison: a byte difference between the `MAC` result and the device's response is
`ResponseMismatch` (60_exceptions.md R209). -/
def comparisonHostError (expected deviceResponse : List Byte) : Option HostError :=
  if differenceBits expected deviceResponse = 0 then none else some .responseMismatch

/-! ## The round's state machine -/

/-- The states of a round (70_reset_and_hazards.md R236); `idle` remembers whether the challenge write was already retried. -/
inductive RoundPhase
  | idle (retried : Bool)
  | challengeSent
  | computeTriggered
  | identityFetched
  | locallyVerified
  | responseFetched
  | finished (o : RoundOutcome)
deriving DecidableEq, Repr

/-- What moves a round on: a transport call of the six transitions that succeeds or fails, the answer of the serial check, the
answer of the comparison (70_reset_and_hazards.md R237); and a read of the device MAC or of the user data, which R237 places in no
transition and which therefore is an event of its own (91_not_in_source.md N16; log 20). -/
inductive RoundEvent
  | transportDone
  | transportFailed
  | serialChecked (accepted : Bool)
  | responseCompared (equal : Bool)
  | deviceDataRead (ok : Bool)
deriving DecidableEq, Repr

/-- The transitions of a round (70_reset_and_hazards.md R236, R237): a failed challenge write is retried once; every other
transport failure ends the round as `TransportFailed`; a rejected serial ends it as `Mismatch`. The model's choices: a read of the
device MAC or the user data may come in any phase, any number of times or never; it leaves the phase as it is, and its failure
ends the round (log 20, which names the one placement that a whole round does not have). An event that the phase does not wait for changes nothing (log 14). -/
def RoundPhase.next : RoundPhase → RoundEvent → RoundPhase
  | .finished o, _ => .finished o
  | phase, .deviceDataRead true => phase
  | _, .deviceDataRead false => .finished .transportFailed
  | .idle _, .transportDone => .challengeSent
  | .idle false, .transportFailed => .idle true
  | .challengeSent, .transportDone => .computeTriggered
  | .computeTriggered, .transportDone => .identityFetched
  | .identityFetched, .serialChecked true => .locallyVerified
  | .identityFetched, .serialChecked false => .finished .mismatch
  | .locallyVerified, .transportDone => .responseFetched
  | .responseFetched, .responseCompared true => .finished .authenticated
  | .responseFetched, .responseCompared false => .finished .mismatch
  | _, .transportFailed => .finished .transportFailed
  | phase, _ => phase

/-- The outcome of a round after its last transport event. A transport call that has not answered fails at its deadline
(70_reset_and_hazards.md R236, R241), so a round that waits for one ends as `transportFailed` (log 14). -/
def RoundPhase.outcome : RoundPhase → RoundOutcome
  | .finished o => o
  | _ => .transportFailed

/-! ## The round as commands to the block -/

/-- The host sends one packet to an idle block and takes the response of the step. The machine has no other outcome than a next
state (60_exceptions.md R200); the last arm is there because the outcome type has three. -/
def issue (p : Packet) (s : State) : State × Packet :=
  match step { s with input := [p] } with
  | .next t => (t, t.output.getLastD [])
  | .fault _ => (s, [])
  | .refused _ => (s, [])

/-- What a round works on: the host's challenge, the bytes read from the device, and the secret bytes 8 to 15 that the host may
fill as it likes (70_reset_and_hazards.md R238). -/
structure RoundInputs where
  challenge : Bytes 64
  serial : Bytes 8
  deviceMac : Bytes 8
  userData : Bytes 64
  secretTail : Bytes 8
  deviceResponse : Bytes 20
deriving DecidableEq, Repr

/-- The `MAC` command of a round: the first 56 challenge bytes, and the password from a `DERIVE` response followed by any 8 bytes
(70_reset_and_hazards.md R238, 90_conflicts.md C4). -/
def roundMac (x : RoundInputs) (deriveResponse : Packet) : Instr :=
  .mac (Bytes.ofList 56 x.challenge.toList) (Bytes.ofList 16 (deriveResponse.drop 1 ++ x.secretTail.toList))

/-- Transition (4), the only one that uses the block: the serial check, the derivation, the MAC. It ends with the expected
response, or with the error class of the first response that has one; then no further command is issued
(70_reset_and_hazards.md R238; 60_exceptions.md R209). The model's choice: its commands follow one another without a transport
call between them, so no read of the device MAC or the user data falls between `SN_CHECK` and `DERIVE` (N16; log 20). -/
def localVerification (x : RoundInputs) (s : State) : State × Except HostError (List Byte) :=
  let r1 := issue (encode (.snCheck x.serial)) s
  match responseHostError .snCheck r1.2 with
  | some e => (r1.1, .error e)
  | none =>
    let r2 := issue (encode (.derive x.deviceMac x.userData x.serial)) r1.1
    match responseHostError .derive r2.2 with
    | some e => (r2.1, .error e)
    | none =>
      let r3 := issue (encode (roundMac x r2.2)) r2.1
      match responseHostError .mac r3.2 with
      | some e => (r3.1, .error e)
      | none => (r3.1, .ok (r3.2.drop 1))

/-- The block's part of a round with the comparison: the state it leaves the block in and the outcome
(70_reset_and_hazards.md R238). -/
def authenticationRound (x : RoundInputs) (s : State) : State × RoundOutcome :=
  let verified := localVerification x s
  match verified.2 with
  | .error e => (verified.1, e.outcome)
  | .ok expected => (verified.1, roundOutcome (comparisonHostError expected x.deviceResponse.toList))

/-! ## A whole round: the transport's events and the block -/

/-- What the transport reports to a round (70_reset_and_hazards.md R236; log 14, log 20). -/
inductive TransportEvent
  | done
  | failed
  | deviceDataRead (ok : Bool)
deriving DecidableEq, Repr

/-- The transport's report as an event of the phase machine. -/
def TransportEvent.event : TransportEvent → RoundEvent
  | .done => .transportDone
  | .failed => .transportFailed
  | .deviceDataRead ok => .deviceDataRead ok

/-- A round in progress: its phase, the block, and the expected response once it is computed. -/
structure RoundRun where
  phase : RoundPhase
  block : State
  expected : List Byte
deriving DecidableEq, Repr

/-- What the host does by itself, without waiting for the transport: the local verification once the serial number is there, the
comparison once the device's response is there (70_reset_and_hazards.md R237). The model's choice: all commands of the verification
run at once when the serial number arrives, so a read of the device MAC or the user data comes before them or after them, though
the spec does not exclude one between `SN_CHECK` and `DERIVE` (91_not_in_source.md N16; log 20). -/
def RoundRun.settle (x : RoundInputs) (r : RoundRun) : RoundRun :=
  match r.phase with
  | .identityFetched =>
    let verified := localVerification x r.block
    match verified.2 with
    | .error e => { r with phase := .finished e.outcome, block := verified.1 }
    | .ok expected => { phase := r.phase.next (.serialChecked true), block := verified.1, expected := expected }
  | .responseFetched =>
    match comparisonHostError r.expected x.deviceResponse.toList with
    | some e => { r with phase := .finished e.outcome }
    | none => { r with phase := r.phase.next (.responseCompared true) }
  | _ => r

/-- One transport event and what the host then does by itself. -/
def RoundRun.transport (x : RoundInputs) (r : RoundRun) (e : TransportEvent) : RoundRun :=
  RoundRun.settle x { r with phase := r.phase.next e.event }

/-- A round from its start: the state it leaves the block in and its outcome (70_reset_and_hazards.md R236 to R238). -/
def runRound (x : RoundInputs) (events : List TransportEvent) (s : State) : State × RoundOutcome :=
  let r := events.foldl (RoundRun.transport x) { phase := .idle false, block := s, expected := [] }
  (r.block, r.phase.outcome)

/-! ## The scheduler's policy -/

/-- How many rounds the host starts and how often it halts, for a sequence of round outcomes: any outcome but `authenticated`
halts it, and no round starts afterwards (60_exceptions.md R213; 70_reset_and_hazards.md R240, R243). -/
structure SchedulerRecord where
  started : Nat
  halts : Nat
deriving DecidableEq, Repr

@[inherit_doc SchedulerRecord]
def scheduleRounds : List RoundOutcome → SchedulerRecord
  | [] => { started := 0, halts := 0 }
  | .authenticated :: rest =>
    { started := (scheduleRounds rest).started + 1, halts := (scheduleRounds rest).halts }
  | .mismatch :: _ => { started := 1, halts := 1 }
  | .transportFailed :: _ => { started := 1, halts := 1 }

/-- Where the host process stands: before its first round, or in one of its two terminal states (60_exceptions.md R213). -/
inductive HostStatus
  /-- no round has ended yet -/
  | starting
  /-- the last round authenticated the device: the process continues -/
  | authenticated
  /-- a round failed: the process stops, and no further command is issued to the block -/
  | securityFailure
deriving DecidableEq, Repr

/-- The status a round's outcome leads to; the scheduler does not distinguish the failures (60_exceptions.md R213). -/
def HostStatus.ofOutcome : RoundOutcome → HostStatus
  | .authenticated => .authenticated
  | .mismatch => .securityFailure
  | .transportFailed => .securityFailure

/-- The host process: where it stands, how many rounds it started, how often it halted, and the block it drives. -/
structure HostProcess where
  status : HostStatus
  started : Nat
  halts : Nat
  block : State
deriving DecidableEq, Repr

/-- What one round works on and what the transport reports during it. -/
structure RoundScript where
  inputs : RoundInputs
  events : List TransportEvent
deriving DecidableEq, Repr

/-- A round starts. -/
def HostProcess.startRound (p : HostProcess) : HostProcess :=
  { p with started := p.started + 1 }

/-- A round ends: the block as the round left it, the status its outcome leads to, and the halt if it failed
(60_exceptions.md R213). -/
def HostProcess.endRound (p : HostProcess) (block : State) (o : RoundOutcome) : HostProcess :=
  { status := HostStatus.ofOutcome o
    started := p.started
    halts := if HostStatus.ofOutcome o = .securityFailure then p.halts + 1 else p.halts
    block := block }

/-- The startup round or a wake-up of the worker: a round, and the halt if it fails; after a halt nothing starts any more
(60_exceptions.md R213; 70_reset_and_hazards.md R240). -/
def HostProcess.wake (p : HostProcess) (r : RoundScript) : HostProcess :=
  if p.status = .securityFailure then p
  else
    let ended := runRound r.inputs r.events p.block
    p.startRound.endRound ended.1 ended.2

/-- The host process over a sequence of rounds, from a block in state `s`. -/
def runHost (rounds : List RoundScript) (s : State) : HostProcess :=
  rounds.foldl HostProcess.wake { status := .starting, started := 0, halts := 0, block := s }

/-- The outcomes of a sequence of rounds, one after the other on one block, without the scheduler's halt. -/
def roundOutcomes : List RoundScript → State → List RoundOutcome
  | [], _ => []
  | r :: rs, s =>
    let ended := runRound r.inputs r.events s
    ended.2 :: roundOutcomes rs ended.1

/-! ## The worker's loop and the timer's signal -/

/-- A round in flight: what it works on, its challenge among it, which stays the same until the round ends
(70_reset_and_hazards.md R239), and how far it is. -/
structure RoundInFlight where
  inputs : RoundInputs
  run : RoundRun
deriving DecidableEq, Repr

/-- The host with its two threads of control (70_reset_and_hazards.md R240, R241): the process; the timer's signal, of which at
most one is pending; and the round in flight, of which there is at most one. While a round is in flight it holds the block, and
`process.block` is the block as the round found it. -/
structure HostLoop where
  process : HostProcess
  pending : Bool
  inFlight : Option RoundInFlight
deriving DecidableEq, Repr

/-- What happens to the host: the timer fires; the startup code or the worker is ready to begin a round, with these inputs; the
transport reports to the round in flight. When each happens is open, since times are not modelled (log 22). -/
inductive HostEvent
  | timerFires
  | roundReady (inputs : RoundInputs)
  | transport (e : TransportEvent)
deriving DecidableEq, Repr

/-- The periodic timer fires: it posts the signal, and a signal that is already pending stays the one pending wake-up. Before the
startup round has ended there is no background activity, so no timer (70_reset_and_hazards.md R240; log 22). -/
def HostLoop.postSignal (l : HostLoop) : HostLoop :=
  match l.process.status with
  | .starting => l
  | .authenticated => { l with pending := true }
  | .securityFailure => l

/-- A round begins on the block, in its first phase. -/
def HostLoop.launch (l : HostLoop) (x : RoundInputs) : HostLoop :=
  { l with
    process := l.process.startRound
    inFlight := some { inputs := x, run := { phase := .idle false, block := l.process.block, expected := [] } } }

/-- The host is ready to begin a round. At startup it begins one without a signal; afterwards the worker waits for the signal
and consumes it. While a round is in flight none begins (70_reset_and_hazards.md R240). -/
def HostLoop.beginRound (l : HostLoop) (x : RoundInputs) : HostLoop :=
  match l.inFlight with
  | some _ => l
  | none =>
    match l.process.status with
    | .starting => l.launch x
    | .authenticated => if l.pending then { l with pending := false }.launch x else l
    | .securityFailure => l

/-- The transport reports to the round in flight, and the round may end with it; with no round in flight nothing waits for a
report (70_reset_and_hazards.md R236, R240). -/
def HostLoop.report (l : HostLoop) (e : TransportEvent) : HostLoop :=
  match l.inFlight with
  | none => l
  | some f =>
    let run := f.run.transport f.inputs e
    match run.phase with
    | .finished o => { l with process := l.process.endRound run.block o, inFlight := none }
    | _ => { l with inFlight := some { f with run := run } }

/-- One event of the host. -/
def HostLoop.next (l : HostLoop) : HostEvent → HostLoop
  | .timerFires => l.postSignal
  | .roundReady x => l.beginRound x
  | .transport e => l.report e

/-- The host at its startup, with a block in state `s`: no round yet, no signal pending. -/
def HostLoop.startup (s : State) : HostLoop :=
  { process := { status := .starting, started := 0, halts := 0, block := s }, pending := false, inFlight := none }

end Sys2Proof.Machine
end

