-- ==== Sys2Proof/Machine/Standard.lean ====
section
/-! DEFINITION. The digest of a whole message in one piece, as RFC 3174 defines it by its method 1: pad, cut into blocks,
compress in order. Engine A's streaming commands are held against it (40_sha1_engine_a.md R110, R115, R116). -/

namespace Sys2Proof.Machine

/-- The 64-bit bit length of a message of `n` bytes as 8 bytes, big-endian, high half first (20_memory.md R54). -/
def lengthField (n : Nat) : List Byte :=
  beBytes (BitVec.ofNat 32 (8 * n / 2 ^ 32)) ++ beBytes (BitVec.ofNat 32 (8 * n))

/-- How many zero bytes padding puts between the byte `0x80` and the length field, so that the whole is made of 64-byte blocks. -/
def padZeros (n : Nat) : Nat :=
  (119 - n % 64) % 64

/-- The padded message (40_sha1_engine_a.md R110). -/
def padMessage (m : List Byte) : List Byte :=
  m ++ [0x80] ++ List.replicate (padZeros m.length) 0 ++ lengthField m.length

/-- The first `n` 64-byte blocks of a byte string, compressed in order. -/
def compressBlocks : Nat → HashWords → List Byte → HashWords
  | 0, h, _ => h
  | n + 1, h, l => compressBlocks n (compress h (l.take 64)) (l.drop 64)

/-- The five digest words of a message. -/
def sha1Words (m : List Byte) : HashWords :=
  compressBlocks ((padMessage m).length / 64) Config.iv (padMessage m)

/-- The 20 digest bytes of a message. -/
def sha1 (m : List Byte) : List Byte :=
  digestBytes (sha1Words m)

end Sys2Proof.Machine
end

