-- ==== Sys2Proof/Safety.lean ====
section
/-! DEFINITION. What counts as a safe state and a safe run of the block, in the terms that claims use: the invariants that hold
between commands (10_state.md R27), which commands leave the context alone (R36), and runs of commands. -/

namespace Sys2Proof.Machine

/-- The invariants (a) to (e) of the context between commands (10_state.md R27). -/
structure Ctx.Invariant (c : Ctx) : Prop where
  /-- (a) -/
  idx_le : c.idx ≤ 63
  /-- (b) -/
  counted : c.finalized = false → c.err = .clear → c.idx = c.bitLength / 8 % 64 ∧ c.bitLength % 8 = 0
  /-- (c) -/
  closed : c.finalized = true →
    c.idx = 0 ∧ c.lenHi = 0 ∧ c.lenLo = 0 ∧ c.buf = Vector.replicate 64 0 ∧ (c.err = .clear ∨ c.err = .sequence)
  /-- (d) -/
  overflowed : c.err = .tooLong → c.finalized = false ∧ c.lenHi = 0 ∧ c.lenLo = 0 ∧ c.idx = 0
  /-- (e) -/
  misused : c.err = .sequence → c.finalized = true

/-- The commands that can bring a corrupted or finalized context back to a fresh one: `SHA_INIT`, and `DERIVE`, which begins with
one (60_exceptions.md R202). -/
def restartsContext : Instr → Bool
  | .shaInit => true
  | .derive _ _ _ => true
  | .shaUpdate _ => false
  | .shaFinal => false
  | .crc8 _ _ => false
  | .snCheck _ => false
  | .mac _ _ => false
  | .scramble _ => false

/-- The commands that neither read nor write the context (10_state.md R36). -/
def ignoresContext : Instr → Bool
  | .crc8 _ _ => true
  | .snCheck _ => true
  | .mac _ _ => true
  | .scramble _ => true
  | .shaInit => false
  | .shaUpdate _ => false
  | .shaFinal => false
  | .derive _ _ _ => false

/-- How many result bytes an `OK` response to a command carries (30_encoding.md R73, R74). -/
def resultLength : Instr → Nat
  | .shaInit => 0
  | .shaUpdate _ => 0
  | .shaFinal => 20
  | .crc8 _ _ => 1
  | .snCheck _ => 1
  | .mac _ _ => 20
  | .scramble _ => 16
  | .derive _ _ _ => 8

/-- The state after a sequence of commands, each executed to completion in order (20_memory.md R61). -/
def runCommands : List Instr → State → State
  | [], s => s
  | i :: is, s =>
    match exec i s with
    | .next t => runCommands is t
    | .fault _ => s
    | .refused _ => s

/-- A run of `k` steps that is still going: no step of it faulted or was refused (60_exceptions.md R200). -/
def RunsFor (k : Nat) (s : State) : Prop :=
  ∃ t, Host.Core.run Sys2Proof.core k s = .next t

end Sys2Proof.Machine
end

