-- ==== Sys2Proof/Certificates/Slice0/Obligations.lean ====
section
/-! DEFINITION. The statements for the provers, in the order of the spec's files: reset, encoding and decode, the step, Engine A,
the compression transform, the CRC-8 Checker, Engine B, the scrambler and `DERIVE`, whole-machine rules, the host's round. Each
docstring names the rule it formalises, or says that it is derived. -/

open Sys2Proof Sys2Proof.Machine

/-! ## Reset -/

/-- 10_state.md R34: "After reset every field of `ctx` is zero". -/
def Obligations.ResetContextIsZero : Prop :=
  State.reset.ctx.h = { a := 0, b := 0, c := 0, d := 0, e := 0 } ∧
  (∀ i (h : i < 64), State.reset.ctx.buf[i] = 0) ∧
  State.reset.ctx.idx = 0 ∧ State.reset.ctx.lenHi = 0 ∧ State.reset.ctx.lenLo = 0 ∧
  State.reset.ctx.finalized = false ∧ State.reset.ctx.err = .clear

/-- 70_reset_and_hazards.md R233, the spec's own inference: `SHA_FINAL` on the reset state answers the digest that starts from
`H = 0`, not from the initial constants. -/
def Obligations.FinalOnResetState : Prop :=
  ∃ t, exec .shaFinal State.reset = .next t ∧
    t.output = [[0x00, 0x0F, 0xFD, 0x8D, 0x43, 0xB4, 0xE3, 0x3C, 0x7C, 0x53, 0x46, 0x1B, 0xD1, 0x0F, 0x27, 0xA5, 0x46, 0x10,
      0x50, 0xD9, 0x0D]] ∧
    t.ctx.finalized = true

/-! ## Encoding and decode -/

/-- Derived from 30_encoding.md R70 to R73 and R77: decoding the packet of a command that respects the payload limit gives that
command back, with every operand byte, under every payload limit. -/
def Obligations.DecodeOfEncode : Prop :=
  ∀ (limit : PayloadLimit) (i : Instr), i.wellFormed limit = true → decodeWith limit (encode i) = .command i

/-- Derived from 30_encoding.md R72 and R77: a packet that decodes to a command is exactly that command's packet, and the command
respects the payload limit; so no two packets decode to one command and no operand byte is dropped. -/
def Obligations.EncodeOfDecode : Prop :=
  ∀ (limit : PayloadLimit) (p : Packet) (i : Instr), decodeWith limit p = .command i →
    encode i = p ∧ i.wellFormed limit = true

/-- The opcode bytes of 30_encoding.md R73 with their required lengths and whether a longer packet is refused (R71, R77). -/
def opcodeLengths : List (Byte × Nat × Bool) :=
  [(0x10, 1, true), (0x11, 1, false), (0x12, 1, true), (0x20, 2, false), (0x21, 9, true), (0x30, 73, true), (0x40, 21, true),
    (0x41, 81, true)]

/-- 30_encoding.md R77: the decode procedure in its order, for every packet and every payload limit; and what a refusal does to
the machine: one response of one status byte, the packet consumed, nothing else. -/
def Obligations.DecodeProcedure : Prop :=
  (∀ limit : PayloadLimit,
    decodeWith limit [] = .refused .absent ∧
    (∀ b operands, b ∉ opcodeLengths.map Prod.fst → decodeWith limit (b :: operands) = .refused .illegal) ∧
    (∀ b len exact operands, (b, len, exact) ∈ opcodeLengths →
      if ∃ m, limit.bound = some m ∧ m < operands.length then decodeWith limit (b :: operands) = .refused .illegal
      else if operands.length + 1 < len then decodeWith limit (b :: operands) = .refused .absent
      else if len < operands.length + 1 ∧ exact = true then decodeWith limit (b :: operands) = .refused .illegal
      else ∃ i, decodeWith limit (b :: operands) = .command i ∧ encode i = b :: operands)) ∧
  (∀ s p rest e, s.input = p :: rest → decode p = .refused e →
    step s = .next { ctx := s.ctx, input := rest,
                     output := s.output ++ [[match e with | .absent => 0x01 | .illegal => 0x04]] })

/-- 30_encoding.md R78: the 248 opcode values not listed are reserved and refused with `ERR_ILLEGAL`, whatever follows them. -/
def Obligations.ReservedOpcodesRefused : Prop :=
  ((List.range 256).filter (fun n => decide (BitVec.ofNat 8 n ∉ opcodeLengths.map Prod.fst))).length = 248 ∧
  (∀ limit b operands, b ∉ opcodeLengths.map Prod.fst →
    decodeWith limit (b :: operands) = .refused .illegal ∧ PacketError.illegal.status = .errIllegal)

/-- Derived from 30_encoding.md sections 1, 2 and 5: a few packets written out from the spec decode to the commands they stand
for. -/
def Obligations.WrittenPacketsDecode : Prop :=
  decode [0x10] = .command .shaInit ∧
  decode [0x11, 0x61, 0x62, 0x63] = .command (.shaUpdate [0x61, 0x62, 0x63]) ∧
  decode [0x12] = .command .shaFinal ∧
  decode [0x20, 0x00, 0x3C, 0x01, 0x02] = .command (.crc8 0x00 [0x3C, 0x01, 0x02]) ∧
  decode [0x21, 0x3C, 0x01, 0x02, 0x03, 0x04, 0x05, 0x06, 0x91] =
    .command (.snCheck #v[0x3C, 0x01, 0x02, 0x03, 0x04, 0x05, 0x06, 0x91]) ∧
  decode [0x10, 0x00] = .refused .illegal ∧
  decode [0x20] = .refused .absent

/-! ## The step -/

/-- Derived from 10_state.md R20: when the packet at the head of the stream decodes to a command, the step is `exec` of that
command on the state with the packet taken from the stream. -/
def Obligations.StepRunsDecodedCommand : Prop :=
  ∀ s p rest i, s.input = p :: rest → decode p = .command i →
    i.wellFormed Config.maxPayload = true ∧ step s = exec i { s with input := rest }

/-- The model's choice (log 6, from 60_exceptions.md section 4): with no packet waiting a step changes nothing. -/
def Obligations.StepIdlesWithoutPacket : Prop :=
  ∀ s, s.input = [] → step s = .next s

/-- 30_encoding.md R74: every packet, legal or not, gets exactly one response: status `OK` and a result of exactly the length of
R73, or a non-`OK` status alone. The packet is consumed. -/
def Obligations.OneResponsePerPacket : Prop :=
  ∀ s p rest, s.input = p :: rest → ∃ c r,
    step s = .next { ctx := c, input := rest, output := s.output ++ [r] } ∧
    ((∃ i result, decode p = .command i ∧ r = 0x00 :: result ∧ result.length = resultLength i) ∨
      (∃ status, status ≠ 0x00 ∧ r = [status]))

/-- Derived from 30_encoding.md section 3 (R76 is the spec's own inference): every command completes with a next state in every
state, leaves the host's stream alone, and appends one response; `SHA_UPDATE` and `SHA_FINAL` may answer `ERR_TOO_LONG` or
`ERR_SEQUENCE`, every other command answers `OK`. -/
def Obligations.EveryCommandCompletes : Prop :=
  ∀ i s, ∃ c r, exec i s = .next { ctx := c, input := s.input, output := s.output ++ [r] } ∧
    match i with
    | .shaUpdate _ => r = [0x00] ∨ r = [0x02] ∨ r = [0x03]
    | .shaFinal => (∃ d, d.length = 20 ∧ r = 0x00 :: d) ∨ r = [0x02] ∨ r = [0x03]
    | i => ∃ result, result.length = resultLength i ∧ r = 0x00 :: result

/-- Derived from 60_exceptions.md section 1: no run of the machine ever stops in a fault or a refusal. -/
def Obligations.NoRunStops : Prop :=
  ∀ k s, RunsFor k s

/-- Derived from 20_memory.md section 4 and 70_reset_and_hazards.md section 5: a stream of commands that respect the payload
limit is executed one packet a step, in order. -/
def Obligations.PacketStreamRunsCommands : Prop :=
  ∀ (is : List Instr) (rest : List Packet) (s : State), (∀ i ∈ is, i.wellFormed Config.maxPayload = true) →
    s.input = is.map encode ++ rest →
    Host.Core.run Sys2Proof.core is.length s = .next (runCommands is { s with input := rest })

/-! ## Hash Engine A -/

/-- 40_sha1_engine_a.md R107: `SHA_INIT` from any state. -/
def Obligations.ShaInitResult : Prop :=
  ∀ s, exec .shaInit s = .next
    { s with
      ctx := { h := { a := 0x67452301, b := 0xEFCDAB89, c := 0x98BADCFE, d := 0x10325476, e := 0xC3D2E1F0 }
               buf := Vector.replicate 64 0
               idx := 0
               lenHi := 0
               lenLo := 0
               finalized := false
               err := .clear }
      output := s.output ++ [[0x00]] }

/-- Derived from 40_sha1_engine_a.md section 4: the per-byte step of R108 under its precondition, field by field. The byte is stored
and counted; the carry goes into the high half when the low half wraps to zero; the overflow sets `err` to `TOO_LONG`; the 64th
byte is followed by a compression of the buffer with that byte in it. The order of the three, and the compression on the very byte that overflows, are
the spec's decision D8 (log 11). -/
def Obligations.AcceptByteFields : Prop :=
  ∀ v (c : Ctx), c.finalized = false → c.err = .clear → c.idx ≤ 63 →
    (∀ j (h : j < 64), (acceptByte v c).buf[j] = if j = c.idx then v else c.buf[j]) ∧
    (acceptByte v c).idx = (if c.idx = 63 then 0 else c.idx + 1) ∧
    (acceptByte v c).lenLo = c.lenLo + 8 ∧
    (acceptByte v c).lenHi = (if c.lenLo + 8 = 0 then c.lenHi + 1 else c.lenHi) ∧
    (acceptByte v c).err = (if c.lenLo + 8 = 0 ∧ c.lenHi + 1 = 0 then .tooLong else .clear) ∧
    (acceptByte v c).h = (if c.idx = 63 then compress c.h (acceptByte v c).buf.toList else c.h) ∧
    (acceptByte v c).finalized = false

/-- 40_sha1_engine_a.md R109: `SHA_UPDATE` in every state. After final: `ERR_SEQUENCE`, `err` set, nothing else changed. On a
corrupted context: the sticky status, nothing changed. Otherwise the bytes up to and including the first one that corrupts the
context are accepted in order, and the status is what `err` then says. -/
def Obligations.ShaUpdateResult : Prop :=
  ∀ data s,
    (s.ctx.finalized = true →
      exec (.shaUpdate data) s =
        .next { s with ctx := { s.ctx with err := .sequence }, output := s.output ++ [[0x03]] }) ∧
    (s.ctx.finalized = false → s.ctx.err ≠ .clear →
      exec (.shaUpdate data) s = .next { s with output := s.output ++ [[statusCode s.ctx.err.status]] }) ∧
    (s.ctx.finalized = false → s.ctx.err = .clear →
      ∃ k, k ≤ data.length ∧
        let after := fun j => (data.take j).foldl (fun c v => acceptByte v c) s.ctx
        (∀ j, j < k → (after j).err = .clear) ∧
        (k = data.length ∨ (after k).err ≠ .clear) ∧
        exec (.shaUpdate data) s =
          .next { s with ctx := after k, output := s.output ++ [[statusCode (after k).err.status]] })

/-- Derived from 40_sha1_engine_a.md section 6 (R115 is the spec's own inference): where the counter does not overflow,
`SHA_UPDATE` answers `OK`; the counted length and the fill index advance by the data; `H` is the old `H` with every block that
the buffered bytes and the data complete compressed into it, in order; and the bytes after the last whole block are buffered. -/
def Obligations.ShaUpdateAbsorbsBlocks : Prop :=
  ∀ data s, s.ctx.Invariant → s.ctx.finalized = false → s.ctx.err = .clear →
    s.ctx.bitLength + 8 * data.length < 2 ^ 64 →
    ∃ c, exec (.shaUpdate data) s = .next { s with ctx := c, output := s.output ++ [[0x00]] } ∧
      let pending := s.ctx.buf.toList.take s.ctx.idx ++ data
      c.finalized = false ∧ c.err = .clear ∧
      c.bitLength = s.ctx.bitLength + 8 * data.length ∧
      c.idx = pending.length % 64 ∧
      c.h = compressBlocks (pending.length / 64) s.ctx.h pending ∧
      c.buf.toList.take c.idx = pending.drop (64 * (pending.length / 64))

/-- Derived from 40_sha1_engine_a.md section 4 and 10_state.md R27: the byte that makes the 64-bit counter wrap is the last one
accepted. The context becomes corrupted, the answer is `ERR_TOO_LONG`, and the rest of the data makes no difference. Nothing is
said of `H` and `buf` (93_implementation_defined.md U5). -/
def Obligations.ShaUpdateOverflow : Prop :=
  ∀ v rest s, s.ctx.finalized = false → s.ctx.err = .clear → s.ctx.idx = 63 →
    s.ctx.lenHi = 0xFFFFFFFF → s.ctx.lenLo = 0xFFFFFFF8 →
    ∃ c, exec (.shaUpdate (v :: rest)) s = .next { s with ctx := c, output := s.output ++ [[0x02]] } ∧
      exec (.shaUpdate [v]) s = .next { s with ctx := c, output := s.output ++ [[0x02]] } ∧
      c.err = .tooLong ∧ c.lenHi = 0 ∧ c.lenLo = 0 ∧ c.idx = 0 ∧ c.finalized = false

/-- Derived from 40_sha1_engine_a.md section 6 (R114 is the spec's own inference): two updates in a row leave the context that one
update with the concatenated data leaves, in every state, an overflowing or corrupted one included. -/
def Obligations.UpdateChunkingInvariance : Prop :=
  ∀ a b s, (runCommands [.shaUpdate a, .shaUpdate b] s).ctx = (runCommands [.shaUpdate (a ++ b)] s).ctx

/-- 40_sha1_engine_a.md R110 and R111: `SHA_FINAL` in every state whose fill index is in the buffer, R110's precondition. A
corrupted context fails with its sticky status, unchanged and without digest bytes. A finalized one re-emits its digest,
unchanged. Otherwise the buffered bytes, the byte `0x80`, zeros and the length field make one block, or two where the fill index
is above 55; they are compressed into `H`, the rest of the context is cleared, and the digest is emitted. -/
def Obligations.ShaFinalResult : Prop :=
  ∀ s, s.ctx.idx ≤ 63 →
    (s.ctx.err ≠ .clear →
      exec .shaFinal s = .next { s with output := s.output ++ [[statusCode s.ctx.err.status]] }) ∧
    (s.ctx.err = .clear → s.ctx.finalized = true →
      exec .shaFinal s = .next { s with output := s.output ++ [0x00 :: digestBytes s.ctx.h] }) ∧
    (s.ctx.err = .clear → s.ctx.finalized = false →
      let zeros := if 55 < s.ctx.idx then (63 - s.ctx.idx) + 56 else 55 - s.ctx.idx
      let padded := s.ctx.buf.toList.take s.ctx.idx ++ [0x80] ++ List.replicate zeros 0 ++
        beBytes s.ctx.lenHi ++ beBytes s.ctx.lenLo
      let h := compressBlocks (if 55 < s.ctx.idx then 2 else 1) s.ctx.h padded
      exec .shaFinal s = .next
        { s with
          ctx := { h := h, buf := Vector.replicate 64 0, idx := 0, lenHi := 0, lenLo := 0, finalized := true, err := .clear }
          output := s.output ++ [0x00 :: digestBytes h] })

/-- Derived from 40_sha1_engine_a.md section 6 (R113 is the spec's own inference): once `SHA_FINAL` has answered a digest, a later
`SHA_FINAL` answers the same digest and leaves the same context, whatever commands that ignore the context came between. -/
def Obligations.FinalIsIdempotent : Prop :=
  ∀ s t d is, exec .shaFinal s = .next t → t.output = s.output ++ [0x00 :: d] → (∀ i ∈ is, ignoresContext i = true) →
    ∃ u, exec .shaFinal (runCommands is t) = .next u ∧ u.ctx = t.ctx ∧
      u.output = (runCommands is t).output ++ [0x00 :: d]

/-- Derived from 60_exceptions.md section 1 (R202 rests on the inference of 10_state.md R26): in a state that meets the invariants,
once `err` is set no sequence of commands without `SHA_INIT` and `DERIVE` changes the context, and every `SHA_UPDATE` and
`SHA_FINAL` after it answers the status of that first error alone. -/
def Obligations.StickyErrorPersists : Prop :=
  ∀ s is data, s.ctx.Invariant → s.ctx.err ≠ .clear → (∀ i ∈ is, restartsContext i = false) →
    let t := runCommands is s
    t.ctx = s.ctx ∧
    exec (.shaUpdate data) t = .next { t with output := t.output ++ [[statusCode s.ctx.err.status]] } ∧
    exec .shaFinal t = .next { t with output := t.output ++ [[statusCode s.ctx.err.status]] }

/-- Derived from 40_sha1_engine_a.md section 6 (R116 is the spec's own inference): from any state, `SHA_INIT`, any number of
updates of any sizes, and `SHA_FINAL` answer the one-piece digest of the concatenated data, for every message whose bit length
fits in 64 bits; all the updates answer `OK`. -/
def Obligations.StreamedDigestIsStandard : Prop :=
  ∀ (chunks : List (List Byte)) s, 8 * chunks.flatten.length < 2 ^ 64 →
    let t := runCommands (.shaInit :: (chunks.map Instr.shaUpdate ++ [.shaFinal])) s
    t.ctx = { h := sha1Words chunks.flatten, buf := Vector.replicate 64 0, idx := 0, lenHi := 0, lenLo := 0,
              finalized := true, err := .clear } ∧
    t.output = s.output ++ ([0x00] :: (chunks.map (fun _ => [0x00]) ++ [0x00 :: sha1 chunks.flatten]))

/-- Derived from 10_state.md R27, the spec's own inference: the reset state meets the invariants of the context. -/
def Obligations.ResetMeetsInvariant : Prop :=
  State.reset.ctx.Invariant

/-- Derived from 10_state.md R27, the spec's own inference: every step keeps the invariants of the context, from every state that
meets them and for every packet. -/
def Obligations.StepKeepsInvariant : Prop :=
  ∀ s t, s.ctx.Invariant → step s = .next t → t.ctx.Invariant

/-! ## The compression transform -/

/-- Derived from 40_sha1_engine_a.md section 1: the initial hash constants and the round constants, which the spec supplies from
general knowledge of RFC 3174 (log 16). -/
def Obligations.HashConstants : Prop :=
  Config.iv = { a := 0x67452301, b := 0xEFCDAB89, c := 0x98BADCFE, d := 0x10325476, e := 0xC3D2E1F0 } ∧
  ∀ t, (t ≤ 19 → Config.roundConstant t = 0x5A827999) ∧
    (20 ≤ t → t ≤ 39 → Config.roundConstant t = 0x6ED9EBA1) ∧
    (40 ≤ t → t ≤ 59 → Config.roundConstant t = 0x8F1BBCDC) ∧
    (60 ≤ t → t ≤ 79 → Config.roundConstant t = 0xCA62C1D6)

/-- Derived from 40_sha1_engine_a.md section 1: the round functions by phase, that they work bit by bit, and the worked values. The
spec supplies the formulas from general knowledge of RFC 3174 (log 16). -/
def Obligations.RoundFunctions : Prop :=
  (∀ t b c d,
    (t ≤ 19 → roundFunction t b c d = (b &&& c) ||| (~~~b &&& d)) ∧
    (20 ≤ t → t ≤ 39 → roundFunction t b c d = b ^^^ c ^^^ d) ∧
    (40 ≤ t → t ≤ 59 → roundFunction t b c d = (b &&& c) ||| (b &&& d) ||| (c &&& d)) ∧
    (60 ≤ t → t ≤ 79 → roundFunction t b c d = b ^^^ c ^^^ d)) ∧
  (∀ t i b c d b' c' d', i < 32 → b.getLsbD i = b'.getLsbD i → c.getLsbD i = c'.getLsbD i → d.getLsbD i = d'.getLsbD i →
    (roundFunction t b c d).getLsbD i = (roundFunction t b' c' d').getLsbD i) ∧
  roundFunction 0 0xEFCDAB89 0x98BADCFE 0x10325476 = 0x98BADCFE ∧
  roundFunction 20 0xEFCDAB89 0x98BADCFE 0x10325476 = 0x67452301 ∧
  roundFunction 40 0xEFCDAB89 0x98BADCFE 0x10325476 = 0x98BADCFE

/-- 40_sha1_engine_a.md R103: a block has a schedule of 80 words, the first 16 its bytes framed big-endian, each later one given by
the recurrence; and the worked example, the block of "abc". -/
def Obligations.ScheduleExpansion : Prop :=
  (∀ block : Bytes 64,
    let w := schedule (wordsOfBytes block.toList)
    let byte := fun i => block.toList.getD i 0
    w.length = 80 ∧
    (∀ t, t ≤ 15 → w.getD t 0 = be32 (byte (4 * t)) (byte (4 * t + 1)) (byte (4 * t + 2)) (byte (4 * t + 3))) ∧
    (∀ t, 16 ≤ t → t ≤ 79 →
      w.getD t 0 = rotl (w.getD (t - 3) 0 ^^^ w.getD (t - 8) 0 ^^^ w.getD (t - 14) 0 ^^^ w.getD (t - 16) 0) 1)) ∧
  (let w := schedule (wordsOfBytes ([0x61, 0x62, 0x63, 0x80] ++ List.replicate 59 0 ++ [0x18]));
    w.take 20 = 0x61626380 :: (List.replicate 14 0 ++ [0x00000018, 0xC2C4C700, 0x00000000, 0x00000030, 0x85898E01]) ∧
    w.getD 79 0 = 0x822E0879)

/-- Derived from 40_sha1_engine_a.md section 2: the rounds begin with the starting state, and each further schedule word `W[t]` is one
round with the five-term sum, the two rotations and the register shuffle, all from the old registers. The spec supplies the sum and
the shuffle from general knowledge of RFC 3174 (log 16). -/
def Obligations.RoundsRecurrence : Prop :=
  (∀ s, rounds s [] = s) ∧
  (∀ s w x,
    let r := rounds s w
    rounds s (w ++ [x]) =
      { a := rotl r.a 5 + roundFunction w.length r.b r.c r.d + r.e + x + Config.roundConstant w.length
        b := r.a
        c := rotl r.b 30
        d := r.c
        e := r.d })

/-- 40_sha1_engine_a.md R105, its formula and its worked example: the rounds' five words are added into the starting state; the
block of "abc" from the initial constants. -/
def Obligations.CompressAddsBack : Prop :=
  (∀ s block,
    let r := rounds s (schedule (wordsOfBytes block))
    compress s block = { a := s.a + r.a, b := s.b + r.b, c := s.c + r.c, d := s.d + r.d, e := s.e + r.e }) ∧
  compress Config.iv ([0x61, 0x62, 0x63, 0x80] ++ List.replicate 59 0 ++ [0x18]) =
    { a := 0xA9993E36, b := 0x4706816A, c := 0xBA3E2571, d := 0x7850C26C, e := 0x9CD0D89D }

/-- Derived from 00_scope.md section 4: `rotl` is the spec's formula on natural numbers. -/
def Obligations.RotateLeftFormula : Prop :=
  ∀ (x : Word) n, 0 < n → n < 32 →
    (rotl x n).toNat = ((x.toNat <<< n) ||| (x.toNat >>> (32 - n))) % 2 ^ 32

/-- 00_scope.md R11: the framing primitives, and that framing a word's own bytes gives the word back. -/
def Obligations.WordFraming : Prop :=
  (∀ b0 b1 b2 b3 : Byte,
    (be32 b0 b1 b2 b3).toNat = b0.toNat * 2 ^ 24 + b1.toNat * 2 ^ 16 + b2.toNat * 2 ^ 8 + b3.toNat) ∧
  (∀ w : Word, beBytes w = [w.extractLsb' 24 8, w.extractLsb' 16 8, w.extractLsb' 8 8, w.extractLsb' 0 8] ∧
    leBytes w = [w.extractLsb' 0 8, w.extractLsb' 8 8, w.extractLsb' 16 8, w.extractLsb' 24 8] ∧
    wordsOfBytes (beBytes w) = [w])

/-- 40_sha1_engine_a.md R112: byte `4i + j` of the digest is byte `j` of `BEbytes(H[i])`. -/
def Obligations.DigestEmission : Prop :=
  ∀ h : HashWords, (digestBytes h).length = 20 ∧
    ∀ i j, i ≤ 4 → j ≤ 3 →
      (digestBytes h).getD (4 * i + j) 0 = (beBytes ([h.a, h.b, h.c, h.d, h.e].getD i 0)).getD j 0

/-! ## The CRC-8 Checker and the serial-number gate -/

/-- The table of 41_crc8.md R142 (`LSB_FIRST`), row by row. -/
def crcTableLsbRows : List (List Byte) :=
  [[0x00, 0x5E, 0xBC, 0xE2, 0x61, 0x3F, 0xDD, 0x83, 0xC2, 0x9C, 0x7E, 0x20, 0xA3, 0xFD, 0x1F, 0x41]] ++
  [[0x9D, 0xC3, 0x21, 0x7F, 0xFC, 0xA2, 0x40, 0x1E, 0x5F, 0x01, 0xE3, 0xBD, 0x3E, 0x60, 0x82, 0xDC]] ++
  [[0x23, 0x7D, 0x9F, 0xC1, 0x42, 0x1C, 0xFE, 0xA0, 0xE1, 0xBF, 0x5D, 0x03, 0x80, 0xDE, 0x3C, 0x62]] ++
  [[0xBE, 0xE0, 0x02, 0x5C, 0xDF, 0x81, 0x63, 0x3D, 0x7C, 0x22, 0xC0, 0x9E, 0x1D, 0x43, 0xA1, 0xFF]] ++
  [[0x46, 0x18, 0xFA, 0xA4, 0x27, 0x79, 0x9B, 0xC5, 0x84, 0xDA, 0x38, 0x66, 0xE5, 0xBB, 0x59, 0x07]] ++
  [[0xDB, 0x85, 0x67, 0x39, 0xBA, 0xE4, 0x06, 0x58, 0x19, 0x47, 0xA5, 0xFB, 0x78, 0x26, 0xC4, 0x9A]] ++
  [[0x65, 0x3B, 0xD9, 0x87, 0x04, 0x5A, 0xB8, 0xE6, 0xA7, 0xF9, 0x1B, 0x45, 0xC6, 0x98, 0x7A, 0x24]] ++
  [[0xF8, 0xA6, 0x44, 0x1A, 0x99, 0xC7, 0x25, 0x7B, 0x3A, 0x64, 0x86, 0xD8, 0x5B, 0x05, 0xE7, 0xB9]] ++
  [[0x8C, 0xD2, 0x30, 0x6E, 0xED, 0xB3, 0x51, 0x0F, 0x4E, 0x10, 0xF2, 0xAC, 0x2F, 0x71, 0x93, 0xCD]] ++
  [[0x11, 0x4F, 0xAD, 0xF3, 0x70, 0x2E, 0xCC, 0x92, 0xD3, 0x8D, 0x6F, 0x31, 0xB2, 0xEC, 0x0E, 0x50]] ++
  [[0xAF, 0xF1, 0x13, 0x4D, 0xCE, 0x90, 0x72, 0x2C, 0x6D, 0x33, 0xD1, 0x8F, 0x0C, 0x52, 0xB0, 0xEE]] ++
  [[0x32, 0x6C, 0x8E, 0xD0, 0x53, 0x0D, 0xEF, 0xB1, 0xF0, 0xAE, 0x4C, 0x12, 0x91, 0xCF, 0x2D, 0x73]] ++
  [[0xCA, 0x94, 0x76, 0x28, 0xAB, 0xF5, 0x17, 0x49, 0x08, 0x56, 0xB4, 0xEA, 0x69, 0x37, 0xD5, 0x8B]] ++
  [[0x57, 0x09, 0xEB, 0xB5, 0x36, 0x68, 0x8A, 0xD4, 0x95, 0xCB, 0x29, 0x77, 0xF4, 0xAA, 0x48, 0x16]] ++
  [[0xE9, 0xB7, 0x55, 0x0B, 0x88, 0xD6, 0x34, 0x6A, 0x2B, 0x75, 0x97, 0xC9, 0x4A, 0x14, 0xF6, 0xA8]] ++
  [[0x74, 0x2A, 0xC8, 0x96, 0x15, 0x4B, 0xA9, 0xF7, 0xB6, 0xE8, 0x0A, 0x54, 0xD7, 0x89, 0x6B, 0x35]]

/-- The table of 41_crc8.md R143 (`MSB_FIRST`), row by row. -/
def crcTableMsbRows : List (List Byte) :=
  [[0x00, 0x31, 0x62, 0x53, 0xC4, 0xF5, 0xA6, 0x97, 0xB9, 0x88, 0xDB, 0xEA, 0x7D, 0x4C, 0x1F, 0x2E]] ++
  [[0x43, 0x72, 0x21, 0x10, 0x87, 0xB6, 0xE5, 0xD4, 0xFA, 0xCB, 0x98, 0xA9, 0x3E, 0x0F, 0x5C, 0x6D]] ++
  [[0x86, 0xB7, 0xE4, 0xD5, 0x42, 0x73, 0x20, 0x11, 0x3F, 0x0E, 0x5D, 0x6C, 0xFB, 0xCA, 0x99, 0xA8]] ++
  [[0xC5, 0xF4, 0xA7, 0x96, 0x01, 0x30, 0x63, 0x52, 0x7C, 0x4D, 0x1E, 0x2F, 0xB8, 0x89, 0xDA, 0xEB]] ++
  [[0x3D, 0x0C, 0x5F, 0x6E, 0xF9, 0xC8, 0x9B, 0xAA, 0x84, 0xB5, 0xE6, 0xD7, 0x40, 0x71, 0x22, 0x13]] ++
  [[0x7E, 0x4F, 0x1C, 0x2D, 0xBA, 0x8B, 0xD8, 0xE9, 0xC7, 0xF6, 0xA5, 0x94, 0x03, 0x32, 0x61, 0x50]] ++
  [[0xBB, 0x8A, 0xD9, 0xE8, 0x7F, 0x4E, 0x1D, 0x2C, 0x02, 0x33, 0x60, 0x51, 0xC6, 0xF7, 0xA4, 0x95]] ++
  [[0xF8, 0xC9, 0x9A, 0xAB, 0x3C, 0x0D, 0x5E, 0x6F, 0x41, 0x70, 0x23, 0x12, 0x85, 0xB4, 0xE7, 0xD6]] ++
  [[0x7A, 0x4B, 0x18, 0x29, 0xBE, 0x8F, 0xDC, 0xED, 0xC3, 0xF2, 0xA1, 0x90, 0x07, 0x36, 0x65, 0x54]] ++
  [[0x39, 0x08, 0x5B, 0x6A, 0xFD, 0xCC, 0x9F, 0xAE, 0x80, 0xB1, 0xE2, 0xD3, 0x44, 0x75, 0x26, 0x17]] ++
  [[0xFC, 0xCD, 0x9E, 0xAF, 0x38, 0x09, 0x5A, 0x6B, 0x45, 0x74, 0x27, 0x16, 0x81, 0xB0, 0xE3, 0xD2]] ++
  [[0xBF, 0x8E, 0xDD, 0xEC, 0x7B, 0x4A, 0x19, 0x28, 0x06, 0x37, 0x64, 0x55, 0xC2, 0xF3, 0xA0, 0x91]] ++
  [[0x47, 0x76, 0x25, 0x14, 0x83, 0xB2, 0xE1, 0xD0, 0xFE, 0xCF, 0x9C, 0xAD, 0x3A, 0x0B, 0x58, 0x69]] ++
  [[0x04, 0x35, 0x66, 0x57, 0xC0, 0xF1, 0xA2, 0x93, 0xBD, 0x8C, 0xDF, 0xEE, 0x79, 0x48, 0x1B, 0x2A]] ++
  [[0xC1, 0xF0, 0xA3, 0x92, 0x05, 0x34, 0x67, 0x56, 0x78, 0x49, 0x1A, 0x2B, 0xBC, 0x8D, 0xDE, 0xEF]] ++
  [[0x82, 0xB3, 0xE0, 0xD1, 0x46, 0x77, 0x24, 0x15, 0x3B, 0x0A, 0x59, 0x68, 0xFF, 0xCE, 0x9D, 0xAC]]

/-- Derived from 41_crc8.md section 1 (R142 and R143 are derived there from R141): the table made by the shifts of R141 is the table
the spec lists, for both bit orders. -/
def Obligations.CrcTablesAsListed : Prop :=
  (List.range 256).map (fun i => crcTable .lsbFirst (BitVec.ofNat 8 i)) = crcTableLsbRows.flatten ∧
  (List.range 256).map (fun i => crcTable .msbFirst (BitVec.ofNat 8 i)) = crcTableMsbRows.flatten

/-- 41_crc8.md R144 and R145: the CRC of the empty string is its initial value, each further byte is one table lookup and XOR;
`CRC8` answers it with `OK` and changes nothing. -/
def Obligations.Crc8Result : Prop :=
  (∀ order init, crc8 order init [] = init ∧
    ∀ data v, crc8 order init (data ++ [v]) = crcTable order (crc8 order init data ^^^ v)) ∧
  (∀ init data s, exec (.crc8 init data) s =
    .next { s with output := s.output ++ [[0x00, crc8 Config.crc8Order init data]] })

/-- Derived from 41_crc8.md section 2 (R146 is the spec's own inference): a CRC may be taken in pieces by passing the result on. -/
def Obligations.CrcChaining : Prop :=
  ∀ order init a b, crc8 order init (a ++ b) = crc8 order (crc8 order init a) b

/-- Derived from 41_crc8.md section 3 (R148 is the spec's own inference): appending one byte makes the CRC zero exactly when that
byte is the CRC so far, for both bit orders. -/
def Obligations.CrcSelfCheck : Prop :=
  ∀ order s v, crc8 order 0x00 (s ++ [v]) = 0x00 ↔ v = crc8 order 0x00 s

/-- Derived from 41_crc8.md section 3 (R148 is the spec's own inference): a byte string whose CRC is zero has no longer CRC zero
when any single bit of it is flipped, for both bit orders. -/
def Obligations.CrcDetectsSingleBit : Prop :=
  ∀ order (s : List Byte) i k, i < s.length → k < 8 → crc8 order 0x00 s = 0x00 →
    crc8 order 0x00 (s.set i (s.getD i 0 ^^^ BitVec.twoPow 8 k)) ≠ 0x00

/-- 41_crc8.md R147: `SN_CHECK` answers 01 when the tag byte is 3C and the CRC over all 8 bytes is 0, else 00, with status `OK`,
and changes nothing. -/
def Obligations.SnCheckResult : Prop :=
  ∀ (serial : Bytes 8) s, exec (.snCheck serial) s =
    .next { s with
      output := s.output ++
        [[0x00, if serial[0] = 0x3C ∧ crc8 Config.crc8Order 0x00 serial.toList = 0x00 then 0x01 else 0x00]] }

/-- Derived from 41_crc8.md section 3 (R148 is the spec's own inference): the accepted serial numbers are the tag byte, any six
bytes, and the one CRC byte they determine. -/
def Obligations.AcceptedSerials : Prop :=
  ∀ order (serial : Bytes 8), serialAccepted order serial = true ↔
    ∃ b1 b2 b3 b4 b5 b6 : Byte,
      serial = #v[0x3C, b1, b2, b3, b4, b5, b6, crc8 order 0x00 [0x3C, b1, b2, b3, b4, b5, b6]]

/-! ## Hash Engine B -/

/-- 42_sha1_engine_b.md R160, R161 and R162: the block of Engine B. All message bytes are framed big-endian into words 0 to 13,
words 14 and 15 are forced to the length 440, and the first eight secret bytes overwrite words 0 and 12. -/
def Obligations.MacBlock : Prop :=
  ∀ (message : Bytes 56) (secret : Bytes 16),
    (macBlockWords message secret).length = 16 ∧
    (∀ i, i ≤ 13 → i ≠ 0 → i ≠ 12 →
      (macBlockWords message secret).getD i 0 =
        be32 (message.toList.getD (4 * i) 0) (message.toList.getD (4 * i + 1) 0) (message.toList.getD (4 * i + 2) 0)
          (message.toList.getD (4 * i + 3) 0)) ∧
    (macBlockWords message secret).getD 0 0 = be32 secret[0] secret[1] secret[2] secret[3] ∧
    (macBlockWords message secret).getD 12 0 = be32 secret[4] secret[5] secret[6] secret[7] ∧
    (macBlockWords message secret).getD 14 0 = 0x00000000 ∧
    (macBlockWords message secret).getD 15 0 = 0x000001B8

/-- 42_sha1_engine_b.md R163, R164 and R165: `MAC` runs the rounds over the block's schedule from the initial constants, adds the
constants back if the configuration says so, emits the words E to A little-endian, with status `OK`, and changes nothing. -/
def Obligations.MacResult : Prop :=
  ∀ message secret s,
    let w := rounds Config.iv (schedule (macBlockWords message secret))
    let r : HashWords :=
      if Config.macFeedforward then
        { a := 0x67452301 + w.a, b := 0xEFCDAB89 + w.b, c := 0x98BADCFE + w.c, d := 0x10325476 + w.d, e := 0xC3D2E1F0 + w.e }
      else w
    exec (.mac message secret) s =
      .next { s with
        output := s.output ++ [0x00 :: (leBytes r.e ++ leBytes r.d ++ leBytes r.c ++ leBytes r.b ++ leBytes r.a)] }

/-- 42_sha1_engine_b.md R164: Engine B emits the bytes that Engine A would emit for the same five words, in reverse order. -/
def Obligations.MacEmissionReversesDigest : Prop :=
  ∀ r : HashWords, macBytes r = leBytes r.e ++ leBytes r.d ++ leBytes r.c ++ leBytes r.b ++ leBytes r.a ∧
    ∀ k, k ≤ 19 → (macBytes r).getD k 0 = (digestBytes r).getD (19 - k) 0

/-- Derived from 42_sha1_engine_b.md section 4 (R168 is the spec's own inference): message bytes 0 to 3 and 48 to 51 and secret
bytes 8 to 15 make no difference to the response, for both values of the add-back. -/
def Obligations.MacIgnoresOverwrittenBytes : Prop :=
  ∀ feedforward (m m' : Bytes 56) (k k' : Bytes 16),
    (∀ i, 4 ≤ i → i ≤ 47 → m.toList.getD i 0 = m'.toList.getD i 0) →
    (∀ i, 52 ≤ i → i ≤ 55 → m.toList.getD i 0 = m'.toList.getD i 0) →
    (∀ i, i ≤ 7 → k.toList.getD i 0 = k'.toList.getD i 0) →
    macReply feedforward m k = macReply feedforward m' k'

/-- Derived from 42_sha1_engine_b.md section 4 (R167 is the spec's own inference): the words with the add-back are the initial
constants plus the words without it; and where the message's last byte is the pad byte, the MAC with the add-back is the
standard digest of the block's first 55 bytes in reverse order. -/
def Obligations.MacRelatesToDigest : Prop :=
  ∀ (message : Bytes 56) (secret : Bytes 16),
    macWords true message secret = addWords Config.iv (macWords false message secret) ∧
    (message[55] = 0x80 →
      macBytes (macWords true message secret) =
        (sha1 (((macBlockWords message secret).flatMap beBytes).take 55)).reverse)

/-! ## The scrambler and DERIVE -/

/-- 43_derive_scramble.md R184: `SCRAMBLE` answers the 16 bytes that the table in use makes of the first 16 digest bytes, with status
`OK`, and changes nothing. -/
def Obligations.ScrambleResult : Prop :=
  ∀ (digest : Bytes 20) s,
    let crp : Bytes 16 := Config.table.pairs.foldl
      (fun (x : Bytes 16) p => x.set p.dst.val (x[p.dst.val] ^^^ x[p.src.val]) p.dst.isLt)
      (Bytes.ofList 16 digest.toList)
    exec (.scramble digest) s = .next { s with output := s.output ++ [0x00 :: crp.toList] }

/-- Derived from 43_derive_scramble.md section 2 (the closed form in R182 is the spec's own inference): under a well-formed table
each destination receives the XOR of its own byte and its source's, and every other position keeps its byte. -/
def Obligations.ScrambleClosedForm : Prop :=
  ∀ (table : ScrambleTable) (digest : Bytes 20),
    (∀ p ∈ table.pairs, (scrambleDigest table digest)[p.dst.val] = digest[p.dst.val] ^^^ digest[p.src.val]) ∧
    (∀ i : Fin 16, (∀ p ∈ table.pairs, p.dst ≠ i) → (scrambleDigest table digest)[i.val] = digest[i.val])

/-- Derived from 43_derive_scramble.md section 2 (R183 is the spec's own inference): under a well-formed table scrambling twice
restores every 16-byte string. -/
def Obligations.ScrambleIsInvolution : Prop :=
  ∀ (table : ScrambleTable) (x : Bytes 16), scramblePairs table.pairs (scramblePairs table.pairs x) = x

/-- 43_derive_scramble.md R185: `DERIVE` makes the state changes of `SHA_INIT`, of `SHA_UPDATE` with the 80 operand bytes, which
answers `OK`, and of `SHA_FINAL`, which answers a digest, without their responses, and answers the first 8 bytes of the
scrambled digest with status `OK`. -/
def Obligations.DeriveResult : Prop :=
  ∀ (deviceMac : Bytes 8) (userData : Bytes 64) (serial : Bytes 8) s, ∃ s1 s2 s3 dg,
    exec .shaInit s = .next s1 ∧
    exec (.shaUpdate (deviceMac.toList ++ userData.toList ++ serial.toList)) s1 = .next s2 ∧
    s2.output = s1.output ++ [[0x00]] ∧
    exec .shaFinal s2 = .next s3 ∧
    s3.output = s2.output ++ [0x00 :: dg] ∧ dg.length = 20 ∧
    exec (.derive deviceMac userData serial) s =
      .next { s with
        ctx := s3.ctx
        output := s.output ++ [0x00 :: (scrambleDigest Config.table (Bytes.ofList 20 dg)).toList.take 8] }

/-- Derived from 43_derive_scramble.md section 4 (R186 and R187 are the spec's own inferences): the response of `DERIVE` and the
context it leaves are functions of the operands alone, whatever the context was; the context holds the unscrambled standard
digest of the 80 bytes and is finalized. -/
def Obligations.DeriveIsPure : Prop :=
  ∀ (deviceMac : Bytes 8) (userData : Bytes 64) (serial : Bytes 8) s,
    let message := deviceMac.toList ++ userData.toList ++ serial.toList
    exec (.derive deviceMac userData serial) s =
      .next { s with
        ctx := { h := sha1Words message, buf := Vector.replicate 64 0, idx := 0, lenHi := 0, lenLo := 0,
                 finalized := true, err := .clear }
        output := s.output ++ [0x00 :: (scramblePairs Config.table.pairs (Bytes.ofList 16 (sha1 message))).toList.take 8] }

/-- Derived from 70_reset_and_hazards.md section 4: a message in progress does not survive `DERIVE`; the next `SHA_UPDATE` answers
`ERR_SEQUENCE`. -/
def Obligations.DeriveEndsMessage : Prop :=
  ∀ deviceMac userData serial data s,
    (runCommands [.derive deviceMac userData serial, .shaUpdate data] s).output.getLastD [] = [0x03] ∧
    (runCommands [.derive deviceMac userData serial, .shaUpdate data] s).ctx.err = .sequence

/-! ## Whole-machine rules -/

/-- Derived from 10_state.md section 7 (R36 is the spec's own inference) and 42_sha1_engine_b.md R166: `CRC8`, `SN_CHECK`, `MAC` and
`SCRAMBLE` neither read nor write the context: one response serves every state, and the context and the host's stream stay. -/
def Obligations.ContextFreeCommands : Prop :=
  ∀ i, ignoresContext i = true → ∃ r, ∀ s, exec i s = .next { s with output := s.output ++ [r] }

/-- Derived from 60_exceptions.md section 3: only `SHA_INIT` and `DERIVE` bring a corrupted context back to an uncorrupted one or a
finalized one back to an open one; `SHA_INIT` does so from every state. -/
def Obligations.OnlyRestartsClear : Prop :=
  (∀ i s t, restartsContext i = false → exec i s = .next t →
    (s.ctx.err ≠ .clear → t.ctx.err ≠ .clear) ∧ (s.ctx.finalized = true → t.ctx.finalized = true)) ∧
  (∀ s, ∃ t, exec .shaInit s = .next t ∧ t.ctx.err = .clear ∧ t.ctx.finalized = false)

/-! ## The host's use of the block -/

/-- Derived from 70_reset_and_hazards.md section 3 (log 14): a round ends `authenticated` exactly when the serial number passes the
gate and the device's 20 bytes equal the MAC computed from the challenge and the derived password; else it ends `mismatch`. A
rejected serial number leaves the context as it was, since no further command is issued. -/
def Obligations.RoundAuthenticates : Prop :=
  ∀ x s,
    let password := (derive Config.table x.deviceMac x.userData x.serial s.ctx).2.result
    let expected := macBytes (macWords Config.macFeedforward (Bytes.ofList 56 x.challenge.toList)
      (Bytes.ofList 16 (password ++ x.secretTail.toList)))
    ((authenticationRound x s).2 = .authenticated ↔
      serialAccepted Config.crc8Order x.serial = true ∧ x.deviceResponse.toList = expected) ∧
    (authenticationRound x s).2 ≠ .transportFailed ∧
    (serialAccepted Config.crc8Order x.serial = false → (authenticationRound x s).1.ctx = s.ctx)

/-- Derived from 70_reset_and_hazards.md section 3: the accumulated OR of XORs of two buffers of one length is zero exactly when they
are equal. -/
def Obligations.ComparisonFindsDifference : Prop :=
  ∀ a b : List Byte, a.length = b.length → (differenceBits a b = 0 ↔ a = b)

/-- Derived from 60_exceptions.md section 5: the host halts at most once; it halts exactly when some outcome is not
`authenticated`, and then the failing round is the last one started. -/
def Obligations.SchedulerHaltsOnce : Prop :=
  ∀ outcomes : List RoundOutcome,
    ((∀ o ∈ outcomes, o = .authenticated) →
      scheduleRounds outcomes = { started := outcomes.length, halts := 0 }) ∧
    (∀ before o rest, outcomes = before ++ o :: rest → (∀ x ∈ before, x = .authenticated) → o ≠ .authenticated →
      scheduleRounds outcomes = { started := before.length + 1, halts := 1 })

/-- Derived from 70_reset_and_hazards.md section 3: a transport failure ends the round as `transportFailed` from every unfinished
state but the first challenge write, which is retried exactly once. The model's choice (log 14): a finished round stays finished
under every event, since an event that a phase does not wait for changes nothing. -/
def Obligations.TransportFailureEndsRound : Prop :=
  (∀ phase : RoundPhase, phase ≠ .idle false → (∀ o, phase ≠ .finished o) →
    phase.next .transportFailed = .finished .transportFailed) ∧
  RoundPhase.next (.idle false) .transportFailed = .idle true ∧
  (∀ o e, RoundPhase.next (.finished o) e = .finished o)

/-- Derived from 60_exceptions.md section 5: the error classes of the block's responses and of the comparison, and the outcome each
bubbles up as; no class bubbles up as `authenticated`, and every outcome but that is a security failure. Which of the two failures
a `SequenceError` becomes is left open (log 21). -/
def Obligations.ErrorsBubbleUp : Prop :=
  (∀ status, statusHostError status = if status = .ok then none else some .sequenceError) ∧
  (∀ op (r : Reply), responseHostError op r.packet =
    if op = .snCheck ∧ r = { status := .ok, result := [0x00] } then some .identityInvalid else statusHostError r.status) ∧
  (∀ expected response : List Byte, expected.length = response.length →
    comparisonHostError expected response = if expected = response then none else some .responseMismatch) ∧
  HostError.transportError.outcome = .transportFailed ∧
  HostError.identityInvalid.outcome = .mismatch ∧
  HostError.responseMismatch.outcome = .mismatch ∧
  (HostError.sequenceError.outcome = .mismatch ∨ HostError.sequenceError.outcome = .transportFailed) ∧
  (∀ o : RoundOutcome, HostStatus.ofOutcome o = if o = .authenticated then .authenticated else .securityFailure)

/-- Derived from 70_reset_and_hazards.md section 3: a round whose four transport calls succeed ends as the block's part of it does,
also when the challenge write succeeds only at its retry; a challenge write that fails twice ends it without a command to the
block. Whatever the transport reports, a round does not authenticate where the block's part of it does not. The events, and that the
device MAC and the user data are read before or after the commands of the local verification, never between them, are the model's
choices (logs 14 and 20). -/
def Obligations.RoundFollowsTransport : Prop :=
  ∀ x s,
    runRound x [.done, .done, .done, .done] s = authenticationRound x s ∧
    runRound x [.failed, .done, .done, .done, .done] s = authenticationRound x s ∧
    runRound x [.failed, .failed] s = (s, .transportFailed) ∧
    (∀ events, (authenticationRound x s).2 ≠ .authenticated → (runRound x events s).2 ≠ .authenticated)

/-- Derived from 60_exceptions.md section 5 and 70_reset_and_hazards.md section 3: the host process halts at most once, exactly when
it ends in a security failure; from then on no round starts and the block is left alone; and what it starts and how often it halts
is what the scheduler's policy gives for the outcomes of its rounds. -/
def Obligations.HostStopsAtSecurityFailure : Prop :=
  ∀ rounds s,
    (runHost rounds s).halts = (if (runHost rounds s).status = .securityFailure then 1 else 0) ∧
    (∀ more, (runHost rounds s).status = .securityFailure → runHost (rounds ++ more) s = runHost rounds s) ∧
    { started := (runHost rounds s).started, halts := (runHost rounds s).halts } = scheduleRounds (roundOutcomes rounds s)
end

