-- ==== Sys2Proof/Laws/Decode.lean ====
section
/-! SUPPORT. The payload limit and the opcode map, each said once. -/

namespace Sys2Proof

/-- A payload exceeds a limit exactly when the limit is bounded and the bound is smaller (30_encoding.md R70, R77). -/
theorem PayloadLimit.exceeded_iff (limit : PayloadLimit) (n : Nat) :
    limit.exceeded n = true ↔ ∃ m, limit.bound = some m ∧ m < n := by
  unfold PayloadLimit.exceeded
  cases limit with
  | unbounded => simp [PayloadLimit.bound]
  | bounded extra =>
    simp only [PayloadLimit.bound, Option.some.injEq, exists_eq_left']
    split
    · simp only [Bool.false_eq_true, false_iff]; omega
    · simp

/-- A command is well-formed under a limit that its payload does not exceed. -/
theorem Instr.wellFormed_iff (limit : PayloadLimit) (i : Instr) :
    i.wellFormed limit = true ↔ limit.exceeded i.payloadLength = false := by
  rw [← Bool.not_eq_true, PayloadLimit.exceeded_iff]
  unfold Instr.wellFormed
  cases limit.bound <;> simp

/-- A payload of at most 80 bytes is within every limit, whatever this hardware's is (30_encoding.md R70). -/
theorem Instr.wellFormed_of_short (limit : PayloadLimit) (i : Instr) (short : i.payloadLength ≤ 80) :
    i.wellFormed limit = true := by
  rw [Instr.wellFormed_iff]
  simp [PayloadLimit.exceeded, short]

/-- The opcode map reads back every opcode byte. -/
@[simp] theorem Opcode.ofByte_byte (op : Opcode) : Opcode.ofByte op.byte = some op := by
  cases op <;> rfl

end Sys2Proof
end

