-- ==== Sys2Proof/Laws/State.lean ====
section
/-! SUPPORT. One lemma for each field of each update of the state and of the context, each true by unfolding the update once, so
that no later proof unfolds a record update. -/

namespace Sys2Proof.Machine

section StateUpdates

variable (s : State) (c : Ctx) (r : Reply) (e : PacketError)

@[simp] theorem State.complete_ctx : (s.complete c r).ctx = c := rfl
@[simp] theorem State.complete_input : (s.complete c r).input = s.input := rfl
@[simp] theorem State.complete_output : (s.complete c r).output = s.output ++ [r.packet] := rfl

@[simp] theorem State.consume_ctx : s.consume.ctx = s.ctx := rfl
@[simp] theorem State.consume_input : s.consume.input = s.input.tail := rfl
@[simp] theorem State.consume_output : s.consume.output = s.output := rfl

@[simp] theorem State.refusePacket_ctx : (s.refusePacket e).ctx = s.ctx := rfl
@[simp] theorem State.refusePacket_input : (s.refusePacket e).input = s.input := rfl
@[simp] theorem State.refusePacket_output : (s.refusePacket e).output = s.output ++ [[statusCode e.status]] := by
  cases e <;> rfl

@[simp] theorem State.reset_ctx : State.reset.ctx = Ctx.zero := rfl
@[simp] theorem State.reset_input : State.reset.input = [] := rfl
@[simp] theorem State.reset_output : State.reset.output = [] := rfl

end StateUpdates

section ContextUpdates

variable (c : Ctx) (e : CtxErr) (v : Byte)

@[simp] theorem Ctx.raise_h : (c.raise e).h = c.h := rfl
@[simp] theorem Ctx.raise_buf : (c.raise e).buf = c.buf := rfl
@[simp] theorem Ctx.raise_idx : (c.raise e).idx = c.idx := rfl
@[simp] theorem Ctx.raise_lenHi : (c.raise e).lenHi = c.lenHi := rfl
@[simp] theorem Ctx.raise_lenLo : (c.raise e).lenLo = c.lenLo := rfl
@[simp] theorem Ctx.raise_finalized : (c.raise e).finalized = c.finalized := rfl
@[simp] theorem Ctx.raise_err : (c.raise e).err = e := rfl

@[simp] theorem Ctx.storeByte_h : (c.storeByte v).h = c.h := rfl
@[simp] theorem Ctx.storeByte_buf : (c.storeByte v).buf = c.buf.setIfInBounds c.idx v := rfl
@[simp] theorem Ctx.storeByte_idx : (c.storeByte v).idx = c.idx + 1 := rfl
@[simp] theorem Ctx.storeByte_lenHi : (c.storeByte v).lenHi = c.lenHi := rfl
@[simp] theorem Ctx.storeByte_lenLo : (c.storeByte v).lenLo = c.lenLo := rfl
@[simp] theorem Ctx.storeByte_finalized : (c.storeByte v).finalized = c.finalized := rfl
@[simp] theorem Ctx.storeByte_err : (c.storeByte v).err = c.err := rfl

@[simp] theorem Ctx.processBlock_h : c.processBlock.h = compress c.h c.buf.toList := by simp only [Ctx.processBlock]
@[simp] theorem Ctx.processBlock_buf : c.processBlock.buf = c.buf := by simp only [Ctx.processBlock]
@[simp] theorem Ctx.processBlock_idx : c.processBlock.idx = 0 := by simp only [Ctx.processBlock]
@[simp] theorem Ctx.processBlock_lenHi : c.processBlock.lenHi = c.lenHi := by simp only [Ctx.processBlock]
@[simp] theorem Ctx.processBlock_lenLo : c.processBlock.lenLo = c.lenLo := by simp only [Ctx.processBlock]
@[simp] theorem Ctx.processBlock_finalized : c.processBlock.finalized = c.finalized := by simp only [Ctx.processBlock]
@[simp] theorem Ctx.processBlock_err : c.processBlock.err = c.err := by simp only [Ctx.processBlock]

@[simp] theorem Ctx.storeLengthField_h : c.storeLengthField.h = c.h := by simp only [Ctx.storeLengthField]
@[simp] theorem Ctx.storeLengthField_idx : c.storeLengthField.idx = c.idx := by simp only [Ctx.storeLengthField]
@[simp] theorem Ctx.storeLengthField_lenHi : c.storeLengthField.lenHi = c.lenHi := by simp only [Ctx.storeLengthField]
@[simp] theorem Ctx.storeLengthField_lenLo : c.storeLengthField.lenLo = c.lenLo := by simp only [Ctx.storeLengthField]
@[simp] theorem Ctx.storeLengthField_finalized : c.storeLengthField.finalized = c.finalized := by simp only [Ctx.storeLengthField]
@[simp] theorem Ctx.storeLengthField_err : c.storeLengthField.err = c.err := by simp only [Ctx.storeLengthField]

@[simp] theorem Ctx.close_h : c.close.h = c.pad.h := by simp only [Ctx.close]
@[simp] theorem Ctx.close_buf : c.close.buf = Vector.replicate 64 0 := by simp only [Ctx.close]
@[simp] theorem Ctx.close_idx : c.close.idx = 0 := by
  simp only [Ctx.close, Ctx.pad, Ctx.processBlock_idx]
@[simp] theorem Ctx.close_lenHi : c.close.lenHi = 0 := by simp only [Ctx.close]
@[simp] theorem Ctx.close_lenLo : c.close.lenLo = 0 := by simp only [Ctx.close]
@[simp] theorem Ctx.close_finalized : c.close.finalized = true := by simp only [Ctx.close]

@[simp] theorem Ctx.fresh_h : Ctx.fresh.h = Config.iv := rfl
@[simp] theorem Ctx.fresh_buf : Ctx.fresh.buf = Vector.replicate 64 0 := rfl
@[simp] theorem Ctx.fresh_idx : Ctx.fresh.idx = 0 := rfl
@[simp] theorem Ctx.fresh_lenHi : Ctx.fresh.lenHi = 0 := rfl
@[simp] theorem Ctx.fresh_lenLo : Ctx.fresh.lenLo = 0 := rfl
@[simp] theorem Ctx.fresh_finalized : Ctx.fresh.finalized = false := rfl
@[simp] theorem Ctx.fresh_err : Ctx.fresh.err = .clear := rfl

end ContextUpdates

end Sys2Proof.Machine
end

