-- ==== Sys2Proof/Laws/Ops.lean ====
section
/-! SUPPORT. For each shared operation one lemma that says all it can do, to be cited instead of unfolding it. -/

namespace Sys2Proof.Machine

/-! ## Bytes and words -/

@[simp] theorem beBytes_length (w : Word) : (beBytes w).length = 4 := rfl

@[simp] theorem leBytes_length (w : Word) : (leBytes w).length = 4 := rfl

theorem leBytes_eq_reverse (w : Word) : leBytes w = (beBytes w).reverse := rfl

@[simp] theorem digestBytes_length (h : HashWords) : (digestBytes h).length = 20 := by
  simp [digestBytes]

@[simp] theorem macBytes_length (h : HashWords) : (macBytes h).length = 20 := by
  simp [macBytes]

@[simp] theorem wordsOfBytes_nil : wordsOfBytes [] = [] := rfl

@[simp] theorem wordsOfBytes_cons (a b c d : Byte) (rest : List Byte) :
    wordsOfBytes (a :: b :: c :: d :: rest) = be32 a b c d :: wordsOfBytes rest := rfl

theorem wordsOfBytes_length (n : Nat) : ∀ l : List Byte, l.length = 4 * n → (wordsOfBytes l).length = n := by
  induction n with
  | zero => intro l h; simp [List.length_eq_zero_iff.mp h]
  | succ n ih =>
    intro l h
    match l, h with
    | a :: b :: c :: d :: rest, h =>
      simp only [wordsOfBytes_cons, List.length_cons]
      rw [ih rest (by simp only [List.length_cons] at h; omega)]
    | [], h => simp at h
    | [_], h => simp only [List.length_cons, List.length_nil] at h; omega
    | [_, _], h => simp only [List.length_cons, List.length_nil] at h; omega
    | [_, _, _], h => simp only [List.length_cons, List.length_nil] at h; omega

/-- `Bytes.ofList` is the first `n` bytes of a list that is long enough. -/
theorem Bytes.toList_ofList (n : Nat) (l : List Byte) (h : n ≤ l.length) : (Bytes.ofList n l).toList = l.take n := by
  apply List.ext_getElem
  · simp [h]
  · intro i h1 h2
    simp only [Vector.length_toList] at h1
    have hl : i < l.length := by omega
    simp [Bytes.ofList, Vector.toList, hl]

/-- A byte string is read back from its own list. -/
theorem Bytes.ofList_toList (n : Nat) (b : Bytes n) : Bytes.ofList n b.toList = b := by
  apply Vector.toList_inj.mp
  rw [Bytes.toList_ofList n b.toList (by simp)]
  simp

/-! ## The command port -/

@[simp] theorem statusCode_ok : statusCode .ok = 0x00 := rfl
@[simp] theorem statusCode_errAbsent : statusCode .errAbsent = 0x01 := rfl
@[simp] theorem statusCode_errTooLong : statusCode .errTooLong = 0x02 := rfl
@[simp] theorem statusCode_errSequence : statusCode .errSequence = 0x03 := rfl
@[simp] theorem statusCode_errIllegal : statusCode .errIllegal = 0x04 := rfl

/-- A response is the status code, followed by the result if the status is `OK`. -/
theorem Reply.packet_cases (r : Reply) :
    (r.status = .ok ∧ r.packet = 0x00 :: r.result) ∨ (r.status ≠ .ok ∧ r.packet = [statusCode r.status]) := by
  rcases r with ⟨st, res⟩
  cases st <;> simp [Reply.packet, statusCode]

@[simp] theorem Reply.packet_ok (res : List Byte) : ({ status := .ok, result := res } : Reply).packet = 0x00 :: res := rfl

@[simp] theorem Reply.packet_nil (st : Status) : ({ status := st, result := [] } : Reply).packet = [statusCode st] := by
  cases st <;> rfl

theorem statusCode_injective (x y : Status) (h : statusCode x = statusCode y) : x = y := by
  cases x <;> cases y <;> first | rfl | (exact absurd h (by decide))

@[simp] theorem statusCode_eq_zero (x : Status) : statusCode x = 0x00 ↔ x = .ok := by
  cases x <;> simp [statusCode]

@[simp] theorem CtxErr.status_eq_ok (e : CtxErr) : e.status = .ok ↔ e = .clear := by
  cases e <;> simp [CtxErr.status]

@[simp] theorem Ctx.corrupted_eq_true (c : Ctx) : c.corrupted = true ↔ c.err ≠ .clear := by
  simp [Ctx.corrupted]

@[simp] theorem Ctx.corrupted_eq_false (c : Ctx) : c.corrupted = false ↔ c.err = .clear := by
  simp [Ctx.corrupted]

/-! ## The buffer -/

/-- Storing zeros moves the fill index and changes nothing but the buffer besides. -/
theorem Ctx.storeZeros_frame (n : Nat) : ∀ c : Ctx,
    (Ctx.storeZeros n c).idx = c.idx + n ∧ (Ctx.storeZeros n c).h = c.h ∧ (Ctx.storeZeros n c).lenHi = c.lenHi ∧
    (Ctx.storeZeros n c).lenLo = c.lenLo ∧ (Ctx.storeZeros n c).finalized = c.finalized ∧
    (Ctx.storeZeros n c).err = c.err := by
  induction n with
  | zero => intro c; simp [Ctx.storeZeros]
  | succ n ih =>
    intro c
    obtain ⟨h1, h2, h3, h4, h5, h6⟩ := ih (c.storeByte 0x00)
    refine ⟨?_, h2, h3, h4, h5, h6⟩
    rw [Ctx.storeZeros, h1, Ctx.storeByte_idx]
    omega

@[simp] theorem Ctx.storeZeros_idx (n : Nat) (c : Ctx) : (Ctx.storeZeros n c).idx = c.idx + n := (storeZeros_frame n c).1
@[simp] theorem Ctx.storeZeros_h (n : Nat) (c : Ctx) : (Ctx.storeZeros n c).h = c.h := (storeZeros_frame n c).2.1
@[simp] theorem Ctx.storeZeros_lenHi (n : Nat) (c : Ctx) : (Ctx.storeZeros n c).lenHi = c.lenHi :=
  (storeZeros_frame n c).2.2.1
@[simp] theorem Ctx.storeZeros_lenLo (n : Nat) (c : Ctx) : (Ctx.storeZeros n c).lenLo = c.lenLo :=
  (storeZeros_frame n c).2.2.2.1
@[simp] theorem Ctx.storeZeros_finalized (n : Nat) (c : Ctx) : (Ctx.storeZeros n c).finalized = c.finalized :=
  (storeZeros_frame n c).2.2.2.2.1
@[simp] theorem Ctx.storeZeros_err (n : Nat) (c : Ctx) : (Ctx.storeZeros n c).err = c.err := (storeZeros_frame n c).2.2.2.2.2

/-- A byte stored at the end of the filled part makes the filled part one byte longer. -/
theorem take_setIfInBounds (buf : Bytes 64) (i : Nat) (v : Byte) (h : i < 64) :
    (buf.setIfInBounds i v).toList.take (i + 1) = buf.toList.take i ++ [v] := by
  rw [Vector.toList_setIfInBounds, List.take_set]
  rw [List.take_add_one, List.getElem?_eq_getElem (by simpa using h)]
  simp [Nat.min_eq_left (Nat.le_of_lt h)]

/-- The filled part of the buffer after storing zeros. -/
theorem Ctx.storeZeros_filled (n : Nat) : ∀ c : Ctx, c.idx + n ≤ 64 →
    (Ctx.storeZeros n c).buf.toList.take (c.idx + n) = c.buf.toList.take c.idx ++ List.replicate n 0 := by
  induction n with
  | zero => intro c _; simp [Ctx.storeZeros]
  | succ n ih =>
    intro c h
    have step := ih (c.storeByte 0x00) (by rw [Ctx.storeByte_idx]; omega)
    rw [Ctx.storeByte_idx, Ctx.storeByte_buf, take_setIfInBounds c.buf c.idx 0x00 (by omega)] at step
    rw [Ctx.storeZeros, show c.idx + (n + 1) = c.idx + 1 + n by omega, step]
    simp [List.replicate_succ]

/-- Filling up to a limit that is not below the fill index brings the index to the limit. -/
@[simp] theorem Ctx.zeroFillTo_idx (limit : Nat) (c : Ctx) (h : c.idx ≤ limit) : (c.zeroFillTo limit).idx = limit := by
  simp only [Ctx.zeroFillTo, Ctx.storeZeros_idx]
  omega

@[simp] theorem Ctx.zeroFillTo_h (limit : Nat) (c : Ctx) : (c.zeroFillTo limit).h = c.h := by simp [Ctx.zeroFillTo]
@[simp] theorem Ctx.zeroFillTo_lenHi (limit : Nat) (c : Ctx) : (c.zeroFillTo limit).lenHi = c.lenHi := by simp [Ctx.zeroFillTo]
@[simp] theorem Ctx.zeroFillTo_lenLo (limit : Nat) (c : Ctx) : (c.zeroFillTo limit).lenLo = c.lenLo := by simp [Ctx.zeroFillTo]
@[simp] theorem Ctx.zeroFillTo_finalized (limit : Nat) (c : Ctx) : (c.zeroFillTo limit).finalized = c.finalized := by
  simp [Ctx.zeroFillTo]
@[simp] theorem Ctx.zeroFillTo_err (limit : Nat) (c : Ctx) : (c.zeroFillTo limit).err = c.err := by simp [Ctx.zeroFillTo]

/-- The filled part of the buffer after filling up to a limit. -/
theorem Ctx.zeroFillTo_filled (limit : Nat) (c : Ctx) (h : c.idx ≤ limit) (h64 : limit ≤ 64) :
    (c.zeroFillTo limit).buf.toList.take limit = c.buf.toList.take c.idx ++ List.replicate (limit - c.idx) 0 := by
  have filled := Ctx.storeZeros_filled (limit - c.idx) c (by omega)
  rwa [show c.idx + (limit - c.idx) = limit by omega] at filled

/-- Bytes set from a place on that leaves room for them: what stands before them stays, and they follow. -/
theorem take_setBufferBytes (vs : List Byte) : ∀ (buf : Bytes 64) (i : Nat), i + vs.length ≤ 64 →
    (setBufferBytes buf i vs).toList.take (i + vs.length) = buf.toList.take i ++ vs := by
  induction vs with
  | nil => intro buf i _; simp [setBufferBytes]
  | cons v vs ih =>
    intro buf i h
    simp only [List.length_cons] at h
    have step := ih (buf.setIfInBounds i v) (i + 1) (by omega)
    rw [take_setIfInBounds buf i v (by omega)] at step
    simp only [setBufferBytes, List.length_cons]
    rw [show i + (vs.length + 1) = i + 1 + vs.length by omega, step]
    simp

/-- The buffer with the length field in its last eight bytes (40_sha1_engine_a.md R110). -/
theorem Ctx.storeLengthField_toList (c : Ctx) :
    c.storeLengthField.buf.toList = c.buf.toList.take 56 ++ beBytes c.lenHi ++ beBytes c.lenLo := by
  have lower := take_setBufferBytes (beBytes c.lenHi) c.buf 56 (by simp)
  have upper := take_setBufferBytes (beBytes c.lenLo) (setBufferBytes c.buf 56 (beBytes c.lenHi)) 60 (by simp)
  simp only [beBytes_length] at lower upper
  rw [lower] at upper
  rw [← upper, List.take_of_length_le (by simp)]
  rfl

end Sys2Proof.Machine
end

