-- ==== Sys2Proof/Laws/EngineA.lean ====
section
/-! SUPPORT. What counting a byte, accepting a byte and the two commands on the context can do, each said once. -/

namespace Sys2Proof.Machine

section Counting

variable (c : Ctx)

@[simp] theorem Ctx.countByte_h : c.countByte.h = c.h := by
  unfold Ctx.countByte; simp only; split <;> [split; skip] <;> simp
@[simp] theorem Ctx.countByte_buf : c.countByte.buf = c.buf := by
  unfold Ctx.countByte; simp only; split <;> [split; skip] <;> simp
@[simp] theorem Ctx.countByte_idx : c.countByte.idx = c.idx := by
  unfold Ctx.countByte; simp only; split <;> [split; skip] <;> simp
@[simp] theorem Ctx.countByte_finalized : c.countByte.finalized = c.finalized := by
  unfold Ctx.countByte; simp only; split <;> [split; skip] <;> simp
@[simp] theorem Ctx.countByte_lenLo : c.countByte.lenLo = c.lenLo + 8 := by
  unfold Ctx.countByte; simp only; split <;> [split; skip] <;> simp
@[simp] theorem Ctx.countByte_lenHi : c.countByte.lenHi = if c.lenLo + 8 = 0 then c.lenHi + 1 else c.lenHi := by
  unfold Ctx.countByte; simp only; split <;> [split; skip] <;> simp
@[simp] theorem Ctx.countByte_err :
    c.countByte.err = if c.lenLo + 8 = 0 ∧ c.lenHi + 1 = 0 then .tooLong else c.err := by
  unfold Ctx.countByte; simp only; split <;> [split; skip] <;> simp_all

/-- The 64-bit counter goes up by 8 modulo 2^64, provided the low half is a multiple of 8 (10_state.md R24, R27). -/
theorem Ctx.countByte_bitLength (h : c.lenLo.toNat % 8 = 0) :
    c.countByte.bitLength = (c.bitLength + 8) % 2 ^ 64 := by
  have lo := c.lenLo.isLt
  have hi := c.lenHi.isLt
  have eight : (8 : Word).toNat = 8 := rfl
  have one : (1 : Word).toNat = 1 := rfl
  simp only [Ctx.bitLength, Ctx.countByte_lenLo, Ctx.countByte_lenHi]
  split
  · next wrapped =>
    have hw : (c.lenLo + 8).toNat = 0 := by rw [wrapped]; rfl
    simp only [BitVec.toNat_add, eight, one] at hw ⊢
    omega
  · next kept =>
    have hk : (c.lenLo + 8).toNat ≠ 0 := fun hz => kept (BitVec.eq_of_toNat_eq (by simpa using hz))
    simp only [BitVec.toNat_add, eight] at hk ⊢
    omega

end Counting

/-- What one accepted byte does to a context whose fill index is in the buffer (40_sha1_engine_a.md R108). -/
theorem acceptByte_cases (v : Byte) (c : Ctx) :
    (c.idx = 63 ∧ acceptByte v c = (c.storeByte v).countByte.processBlock) ∨
    (c.idx ≠ 63 ∧ acceptByte v c = (c.storeByte v).countByte) := by
  unfold acceptByte
  simp only [Ctx.countByte_idx, Ctx.storeByte_idx]
  by_cases h : c.idx = 63
  · left; simp [h]
  · right; simp [h]

@[simp] theorem acceptByte_finalized (v : Byte) (c : Ctx) : (acceptByte v c).finalized = c.finalized := by
  rcases acceptByte_cases v c with ⟨_, h⟩ | ⟨_, h⟩ <;> simp [h]

@[simp] theorem acceptByte_lenLo (v : Byte) (c : Ctx) : (acceptByte v c).lenLo = c.lenLo + 8 := by
  rcases acceptByte_cases v c with ⟨_, h⟩ | ⟨_, h⟩ <;> simp [h]

@[simp] theorem acceptByte_err (v : Byte) (c : Ctx) :
    (acceptByte v c).err = if c.lenLo + 8 = 0 ∧ c.lenHi + 1 = 0 then .tooLong else c.err := by
  rcases acceptByte_cases v c with ⟨_, h⟩ | ⟨_, h⟩
  · rw [h, Ctx.processBlock_err]; exact Ctx.countByte_err (c.storeByte v)
  · rw [h]; exact Ctx.countByte_err (c.storeByte v)

@[simp] theorem acceptByte_lenHi (v : Byte) (c : Ctx) :
    (acceptByte v c).lenHi = if c.lenLo + 8 = 0 then c.lenHi + 1 else c.lenHi := by
  rcases acceptByte_cases v c with ⟨_, h⟩ | ⟨_, h⟩
  · rw [h, Ctx.processBlock_lenHi]; exact Ctx.countByte_lenHi (c.storeByte v)
  · rw [h]; exact Ctx.countByte_lenHi (c.storeByte v)

/-- The fill index of a buffer with room advances modulo 64. -/
theorem acceptByte_idx (v : Byte) (c : Ctx) (room : c.idx ≤ 63) : (acceptByte v c).idx = (c.idx + 1) % 64 := by
  rcases acceptByte_cases v c with ⟨full, h⟩ | ⟨notFull, h⟩
  · rw [h, Ctx.processBlock_idx, full]
  · rw [h, Ctx.countByte_idx, Ctx.storeByte_idx, Nat.mod_eq_of_lt (by omega)]

/-- Accepting a byte advances the 64-bit counter by 8 modulo 2^64, provided its low half is a multiple of 8. -/
theorem acceptByte_bitLength (v : Byte) (c : Ctx) (h : c.lenLo.toNat % 8 = 0) :
    (acceptByte v c).bitLength = (c.bitLength + 8) % 2 ^ 64 := by
  rw [← Ctx.countByte_bitLength c h]
  simp only [Ctx.bitLength, acceptByte_lenHi, acceptByte_lenLo, Ctx.countByte_lenHi, Ctx.countByte_lenLo]

/-- What `SHA_UPDATE` does to a context, in its three branches (40_sha1_engine_a.md R109). -/
theorem shaUpdate_cases (data : List Byte) (c : Ctx) :
    (c.finalized = true ∧ shaUpdate data c = (c.raise .sequence, { status := .errSequence, result := [] })) ∨
    (c.finalized = false ∧ c.err ≠ .clear ∧ shaUpdate data c = (c, { status := c.err.status, result := [] })) ∨
    (c.finalized = false ∧ c.err = .clear ∧
      shaUpdate data c = (acceptBytes data c, { status := (acceptBytes data c).err.status, result := [] })) := by
  unfold shaUpdate
  cases hf : c.finalized
  · cases hc : c.corrupted
    · exact .inr (.inr ⟨rfl, (Ctx.corrupted_eq_false c).mp hc, by simp⟩)
    · exact .inr (.inl ⟨rfl, (Ctx.corrupted_eq_true c).mp hc, by simp⟩)
  · exact .inl ⟨rfl, by simp⟩

/-- What `SHA_FINAL` does to a context, in its three branches (40_sha1_engine_a.md R111). -/
theorem shaFinal_cases (c : Ctx) :
    (c.err ≠ .clear ∧ shaFinal c = (c, { status := c.err.status, result := [] })) ∨
    (c.err = .clear ∧ c.finalized = true ∧ shaFinal c = (c, { status := .ok, result := digestBytes c.h })) ∨
    (c.err = .clear ∧ c.finalized = false ∧
      shaFinal c = (c.close, { status := .ok, result := digestBytes c.close.h })) := by
  unfold shaFinal
  cases hc : c.corrupted
  · cases hf : c.finalized
    · exact .inr (.inr ⟨(Ctx.corrupted_eq_false c).mp hc, rfl, by simp⟩)
    · exact .inr (.inl ⟨(Ctx.corrupted_eq_false c).mp hc, rfl, by simp⟩)
  · exact .inl ⟨(Ctx.corrupted_eq_true c).mp hc, by simp⟩

@[simp] theorem Ctx.pad_lenHi (c : Ctx) : c.pad.lenHi = c.lenHi := by
  simp only [Ctx.pad, Ctx.processBlock_lenHi, Ctx.storeLengthField_lenHi]
  split <;> simp

@[simp] theorem Ctx.pad_err (c : Ctx) : c.pad.err = c.err := by
  simp only [Ctx.pad, Ctx.processBlock_err, Ctx.storeLengthField_err]
  split <;> simp

@[simp] theorem Ctx.close_err (c : Ctx) : c.close.err = c.err := by
  simp only [Ctx.close, Ctx.pad_err]

end Sys2Proof.Machine
end

