-- ==== Sys2Proof/Laws/Exec.lean ====
section
/-! SUPPORT. `exec` and `step` said once: the equation of each command, and the three things a step can do. -/

namespace Sys2Proof.Machine

section Equations

variable (s : State)

@[simp] theorem exec_shaInit :
    exec .shaInit s = .next (s.complete Ctx.fresh { status := .ok, result := [] }) := rfl

@[simp] theorem exec_shaUpdate (data : List Byte) :
    exec (.shaUpdate data) s = .next (s.complete (shaUpdate data s.ctx).1 (shaUpdate data s.ctx).2) := rfl

@[simp] theorem exec_shaFinal :
    exec .shaFinal s = .next (s.complete (shaFinal s.ctx).1 (shaFinal s.ctx).2) := rfl

@[simp] theorem exec_crc8 (init : Byte) (data : List Byte) :
    exec (.crc8 init data) s = .next (s.complete s.ctx (crc8Reply Config.crc8Order init data)) := rfl

@[simp] theorem exec_snCheck (serial : Bytes 8) :
    exec (.snCheck serial) s = .next (s.complete s.ctx (snCheckReply Config.crc8Order serial)) := rfl

@[simp] theorem exec_mac (message : Bytes 56) (secret : Bytes 16) :
    exec (.mac message secret) s = .next (s.complete s.ctx (macReply Config.macFeedforward message secret)) := rfl

@[simp] theorem exec_scramble (digest : Bytes 20) :
    exec (.scramble digest) s = .next (s.complete s.ctx (scrambleReply Config.table digest)) := rfl

@[simp] theorem exec_derive (deviceMac : Bytes 8) (userData : Bytes 64) (serial : Bytes 8) :
    exec (.derive deviceMac userData serial) s =
      .next (s.complete (derive Config.table deviceMac userData serial s.ctx).1
        (derive Config.table deviceMac userData serial s.ctx).2) := rfl

end Equations

/-- Everything a step that answers `t` can have done: nothing waited; or the head packet was refused; or it was a command, and
`t` is what `exec` answers on the state with the packet taken. -/
theorem step_cases {s t : State} (h : step s = .next t) :
    (s.input = [] ∧ t = s) ∨
    (∃ p rest e, s.input = p :: rest ∧ decode p = .refused e ∧
      t = { ctx := s.ctx, input := rest, output := s.output ++ [[statusCode e.status]] }) ∨
    (∃ p rest i, s.input = p :: rest ∧ decode p = .command i ∧ exec i { s with input := rest } = .next t) := by
  rcases s with ⟨ctx, input, output⟩
  cases input with
  | nil =>
    left
    simp only [step, State.nextPacket, List.head?_nil, Host.Outcome.next.injEq] at h
    exact ⟨rfl, h.symm⟩
  | cons p rest =>
    right
    simp only [step, State.nextPacket, List.head?_cons] at h
    cases hd : decode p with
    | refused e =>
      left
      rw [hd] at h
      simp only [Host.Outcome.next.injEq] at h
      refine ⟨p, rest, e, rfl, hd, ?_⟩
      rw [← h]
      cases e <;> rfl
    | command i =>
      right
      rw [hd] at h
      exact ⟨p, rest, i, rfl, hd, h⟩

end Sys2Proof.Machine
end

