-- ==== Sys2Proof/Laws/HostRound.lean ====
section
/-! SUPPORT. The host's operations said once: issuing a command, settling a phase, waking the host process, the worker's loop and its signal. -/

namespace Sys2Proof.Machine

/-- The response a completed command leaves last. -/
@[simp] theorem State.complete_last (s : State) (c : Ctx) (r : Reply) :
    (s.complete c r).output.getLastD [] = r.packet := by
  simp [State.complete]

/-- Issuing a packet that decodes to a command runs that command on the idle block and takes its response. -/
theorem issue_command {p : Packet} {i : Instr} {s : State} {c : Ctx} {r : Reply} (read : decode p = .command i)
    (ran : exec i { s with input := [] } = .next (State.complete { s with input := [] } c r)) :
    issue p s = (State.complete { s with input := [] } c r, r.packet) := by
  have stepped : step { s with input := [p] } = exec i { s with input := [] } := by
    simp only [step, State.nextPacket, List.head?_cons, read]
    rfl
  unfold issue
  rw [stepped, ran]
  simp only [State.complete_last]

/-- In a phase that waits for the transport, or is finished, the host does nothing by itself. -/
theorem RoundRun.settle_waiting (x : RoundInputs) (r : RoundRun) (h1 : r.phase ≠ .identityFetched)
    (h2 : r.phase ≠ .responseFetched) : RoundRun.settle x r = r := by
  unfold RoundRun.settle
  split <;> simp_all

/-- Once the serial number is there, the round is verified or ended. -/
theorem RoundRun.settle_identityFetched (x : RoundInputs) (s : State) (e : List Byte) :
    RoundRun.settle x { phase := .identityFetched, block := s, expected := e } =
      match (localVerification x s).2 with
      | .error err => { phase := .finished err.outcome, block := (localVerification x s).1, expected := e }
      | .ok expected => { phase := .locallyVerified, block := (localVerification x s).1, expected := expected } := rfl

/-- Once the response is there, the comparison ends the round. -/
theorem RoundRun.settle_responseFetched (x : RoundInputs) (s : State) (e : List Byte) :
    RoundRun.settle x { phase := .responseFetched, block := s, expected := e } =
      { phase := .finished (roundOutcome (comparisonHostError e x.deviceResponse.toList)), block := s, expected := e } := by
  unfold RoundRun.settle
  cases comparisonHostError e x.deviceResponse.toList <;> rfl

/-- After a security failure a wake-up does nothing. -/
theorem HostProcess.wake_stopped (p : HostProcess) (r : RoundScript) (h : p.status = .securityFailure) : p.wake r = p := by
  simp [HostProcess.wake, h]

/-- Before one a wake-up runs a round; it ends authenticated, or it halts the host. -/
theorem HostProcess.wake_cases (p : HostProcess) (r : RoundScript) (h : p.status ≠ .securityFailure) :
    ((runRound r.inputs r.events p.block).2 = .authenticated ∧
      p.wake r = { status := .authenticated, started := p.started + 1, halts := p.halts,
                   block := (runRound r.inputs r.events p.block).1 }) ∨
    ((runRound r.inputs r.events p.block).2 ≠ .authenticated ∧
      p.wake r = { status := .securityFailure, started := p.started + 1, halts := p.halts + 1,
                   block := (runRound r.inputs r.events p.block).1 }) := by
  unfold HostProcess.wake
  rw [if_neg h]
  generalize runRound r.inputs r.events p.block = ended
  rcases ended with ⟨t, o⟩
  cases o <;> simp [HostProcess.startRound, HostProcess.endRound, HostStatus.ofOutcome]

/-! ## The worker's loop -/

/-- The signal is all that the timer touches. -/
@[simp] theorem HostLoop.postSignal_process (l : HostLoop) : l.postSignal.process = l.process := by
  unfold HostLoop.postSignal; split <;> rfl

@[simp] theorem HostLoop.postSignal_inFlight (l : HostLoop) : l.postSignal.inFlight = l.inFlight := by
  unfold HostLoop.postSignal; split <;> rfl

/-- Timer firings that no round consumes in between leave one pending wake-up. -/
theorem HostLoop.postSignal_twice (l : HostLoop) : l.postSignal.postSignal = l.postSignal := by
  rcases l with ⟨⟨status, _, _, _⟩, _, _⟩
  cases status <;> rfl

/-- While a round is in flight none begins. -/
theorem HostLoop.beginRound_inFlight (l : HostLoop) (x : RoundInputs) (h : l.inFlight ≠ none) : l.beginRound x = l := by
  unfold HostLoop.beginRound
  split
  · rfl
  · contradiction

/-- After startup no round begins without the signal. -/
theorem HostLoop.beginRound_unsignalled (l : HostLoop) (x : RoundInputs) (h : l.process.status ≠ .starting)
    (unsignalled : l.pending = false) : l.beginRound x = l := by
  unfold HostLoop.beginRound
  split
  · rfl
  · split <;> simp_all

/-- A pending signal begins one round and is consumed by it. -/
theorem HostLoop.beginRound_signalled (l : HostLoop) (x : RoundInputs) (h : l.process.status = .authenticated)
    (signalled : l.pending = true) (free : l.inFlight = none) :
    l.beginRound x = { l with pending := false }.launch x := by
  simp [HostLoop.beginRound, h, signalled, free]

/-- At a security failure with no round in flight the host stays as it is under every event. -/
theorem HostLoop.next_stopped (l : HostLoop) (e : HostEvent) (h : l.process.status = .securityFailure)
    (free : l.inFlight = none) : l.next e = l := by
  cases e <;> simp [HostLoop.next, HostLoop.postSignal, HostLoop.beginRound, HostLoop.report, h, free]

/-- A security failure of the process leaves no round in flight: it is the end of a round, and then none begins. -/
theorem HostLoop.next_failure_free (l : HostLoop) (e : HostEvent)
    (h : l.process.status = .securityFailure → l.inFlight = none) :
    (l.next e).process.status = .securityFailure → (l.next e).inFlight = none := by
  cases e with
  | timerFires => simpa only [HostLoop.next, HostLoop.postSignal_process, HostLoop.postSignal_inFlight] using h
  | roundReady x =>
    simp only [HostLoop.next, HostLoop.beginRound]
    split
    · exact h
    · split
      · simp_all [HostLoop.launch, HostProcess.startRound]
      · split <;> simp_all [HostLoop.launch, HostProcess.startRound]
      · exact h
  | transport t =>
    simp only [HostLoop.next, HostLoop.report]
    split
    · exact h
    · next f hf =>
      split
      · intro _; rfl
      · intro failed
        rw [h failed] at hf
        cases hf

/-- A finished round stays as it is under every report. -/
theorem RoundRun.transports_finished (x : RoundInputs) (o : RoundOutcome) (s : State) (expected : List Byte)
    (events : List TransportEvent) :
    events.foldl (RoundRun.transport x) { phase := .finished o, block := s, expected := expected } =
      { phase := .finished o, block := s, expected := expected } := by
  induction events with
  | nil => rfl
  | cons e events ih => exact ih

/-- With no round in flight reports change nothing. -/
theorem HostLoop.reports_idle (p : HostProcess) (pending : Bool) (events : List TransportEvent) :
    events.foldl HostLoop.report { process := p, pending := pending, inFlight := none } =
      { process := p, pending := pending, inFlight := none } := by
  induction events with
  | nil => rfl
  | cons e events ih => exact ih

/-- Reports to a round in flight drive it as `RoundRun.transport` does; if it is finished after them, it has ended, with its block
and its outcome in the process. -/
theorem HostLoop.reports_end (x : RoundInputs) (p : HostProcess) (pending : Bool) (o : RoundOutcome) (events : List TransportEvent) :
    ∀ run : RoundRun, (∀ o', run.phase ≠ .finished o') → (events.foldl (RoundRun.transport x) run).phase = .finished o →
      events.foldl HostLoop.report { process := p, pending := pending, inFlight := some { inputs := x, run := run } } =
        { process := p.endRound (events.foldl (RoundRun.transport x) run).block o, pending := pending, inFlight := none } := by
  induction events with
  | nil => intro run open_ h; exact absurd h (open_ o)
  | cons e events ih =>
    intro run _ h
    simp only [List.foldl_cons] at h ⊢
    rcases hr : RoundRun.transport x run e with ⟨phase, s, expected⟩
    rw [hr] at h
    simp only [HostLoop.report, hr]
    split
    · rw [RoundRun.transports_finished] at h ⊢
      simp only [RoundPhase.finished.injEq] at h
      subst h
      exact HostLoop.reports_idle _ pending events
    · next notFinished =>
      exact ih _ (fun o' hp => notFinished o' hp) h

/-- A round that a signal begins and whose reports end it does to the process what `HostProcess.wake` says of a whole round. -/
theorem HostLoop.round_is_wake (l : HostLoop) (x : RoundInputs) (events : List TransportEvent) (o : RoundOutcome)
    (h : l.process.status = .authenticated) (signalled : l.pending = true) (free : l.inFlight = none)
    (finished : (events.foldl (RoundRun.transport x)
      { phase := .idle false, block := l.process.block, expected := [] }).phase = .finished o) :
    events.foldl HostLoop.report (l.beginRound x) =
      { process := l.process.wake { inputs := x, events := events }, pending := false, inFlight := none } := by
  rw [HostLoop.beginRound_signalled l x h signalled free]
  have ran := HostLoop.reports_end x l.process.startRound false o events
    { phase := .idle false, block := l.process.block, expected := [] } (fun o' => by simp) finished
  simp only [HostLoop.launch]
  rw [ran]
  simp [HostProcess.wake, h, runRound, finished, RoundPhase.outcome]

end Sys2Proof.Machine
end

