-- ==== Sys2Proof/Laws/PerInstr.lean ====
section
/-! SUPPORT. A statement about every command as syntax, proved one constructor at a time: the packet of a command is its opcode
byte and its payload, and no shorter than its format requires (30_encoding.md R70, R71). -/

namespace Sys2Proof.Laws

/-- The packet of `i` has one byte more than its payload, and at least the length its format requires. -/
def EncodedLength.Statement (i : Instr) : Prop :=
  (encode i).length = i.payloadLength + 1 ∧ i.opcode.format.required ≤ (encode i).length

theorem EncodedLength.shaInit : EncodedLength.Statement .shaInit := ⟨rfl, Nat.le_refl 1⟩

theorem EncodedLength.shaUpdate (data : List Byte) : EncodedLength.Statement (.shaUpdate data) := by
  constructor <;> simp [encode, Instr.operandBytes, Instr.payloadLength, Instr.opcode, Opcode.format, Format.required]

theorem EncodedLength.shaFinal : EncodedLength.Statement .shaFinal := ⟨rfl, Nat.le_refl 1⟩

theorem EncodedLength.crc8 (init : Byte) (data : List Byte) : EncodedLength.Statement (.crc8 init data) := by
  constructor <;>
    simp only [encode, Instr.operandBytes, Instr.payloadLength, Instr.opcode, Opcode.format, Format.required,
      List.length_cons] <;> omega

theorem EncodedLength.snCheck (serial : Bytes 8) : EncodedLength.Statement (.snCheck serial) := by
  constructor <;> simp [encode, Instr.operandBytes, Instr.payloadLength, Instr.opcode, Opcode.format, Format.required]

theorem EncodedLength.mac (message : Bytes 56) (secret : Bytes 16) : EncodedLength.Statement (.mac message secret) := by
  constructor <;> simp [encode, Instr.operandBytes, Instr.payloadLength, Instr.opcode, Opcode.format, Format.required]

theorem EncodedLength.scramble (digest : Bytes 20) : EncodedLength.Statement (.scramble digest) := by
  constructor <;> simp [encode, Instr.operandBytes, Instr.payloadLength, Instr.opcode, Opcode.format, Format.required]

theorem EncodedLength.derive (deviceMac : Bytes 8) (userData : Bytes 64) (serial : Bytes 8) :
    EncodedLength.Statement (.derive deviceMac userData serial) := by
  constructor <;> simp [encode, Instr.operandBytes, Instr.payloadLength, Instr.opcode, Opcode.format, Format.required]

end Sys2Proof.Laws
end

