-- ==== Sys2Proof/Tests/Slice0.lean ====
section
/-! SUPPORT. The model's own tests, each a check on fixed values whose expected result is the spec's (95_test_vectors.md names the
vectors), and one witness for each obligation that has hypotheses: a concrete input that meets all of them together. -/

namespace Sys2Proof.Tests

open Sys2Proof.Machine

-- One theorem at a time: many kernel evaluations waiting for one another would each hold a thread and its stack.
set_option Elab.async false

/-! ## Helpers -/

/-- The state a step leaves. -/
def after (s : State) : State :=
  match step s with
  | .next t => t
  | .fault _ => s
  | .refused _ => s

/-- A state with one packet waiting. -/
def waiting (c : Ctx) (p : Packet) : State :=
  { ctx := c, input := [p], output := [] }

/-- An open, uncorrupted context with an empty buffer. -/
def openCtx (idx : Nat) (lenHi lenLo : Word) : Ctx :=
  { Ctx.fresh with idx := idx, lenHi := lenHi, lenLo := lenLo }

/-- The context after the digest of "abc" (95_test_vectors.md V-A2). -/
def abcClosed : Ctx :=
  { Ctx.fresh with
    h := { a := 0xA9993E36, b := 0x4706816A, c := 0xBA3E2571, d := 0x7850C26C, e := 0x9CD0D89D }, finalized := true }

/-- The digest bytes of "abc" (V-A2). -/
def abcDigest : List Byte :=
  [0xA9, 0x99, 0x3E, 0x36, 0x47, 0x06, 0x81, 0x6A, 0xBA, 0x3E, 0x25, 0x71, 0x78, 0x50, 0xC2, 0x6C, 0x9C, 0xD0, 0xD8, 0x9D]

/-- A list as a fixed byte string. -/
def bytes (n : Nat) (l : List Byte) : Bytes n :=
  Bytes.ofList n l

/-- The bytes `first, first + 1, ...`. -/
def ramp (first n : Nat) : List Byte :=
  (List.range n).map (fun i => BitVec.ofNat 8 (first + i))

/-- The message of V-B1: bytes 0 to 54 count up, then the pad byte. -/
def macMessage : Bytes 56 :=
  bytes 56 (ramp 0 55 ++ [0x80])

/-- The secret of V-B1. -/
def macSecret : Bytes 16 :=
  bytes 16 (ramp 0xA0 16)

/-- The table `EX2` (95_test_vectors.md section 5). -/
def illustrativeTable2 : List ScramblePair :=
  [⟨0, 15⟩, ⟨1, 14⟩, ⟨2, 13⟩, ⟨3, 12⟩, ⟨4, 11⟩, ⟨5, 10⟩, ⟨6, 9⟩, ⟨7, 8⟩]

/-- A configuration's table equal to `EX1`. -/
def tableEx1 : ScrambleTable :=
  { pairs := illustrativeTable1 }

/-! ## Well-formedness: an ill-formed term for each check (30_encoding.md R70; 43_derive_scramble.md R180) -/

theorem test_payload_over_bound_refused : (Instr.shaUpdate (List.replicate 81 0)).wellFormed (.bounded 0) = false := by decide

theorem test_payload_at_bound_accepted : (Instr.shaUpdate (List.replicate 80 0)).wellFormed (.bounded 0) = true := by decide

theorem test_table_of_seven_pairs_refused : scrambleTableWellFormed (illustrativeTable1.take 7) = false := by decide

theorem test_table_own_source_refused : scrambleTableWellFormed (⟨0, 0⟩ :: illustrativeTable1.drop 1) = false := by decide

theorem test_table_destination_twice_refused : scrambleTableWellFormed (⟨1, 8⟩ :: illustrativeTable1.drop 1) = false := by decide

theorem test_table_source_changed_refused : scrambleTableWellFormed (⟨0, 7⟩ :: illustrativeTable1.drop 1) = false := by decide

theorem test_tables_of_the_vectors_accepted :
    scrambleTableWellFormed illustrativeTable1 = true ∧ scrambleTableWellFormed illustrativeTable2 = true := by decide

/-! ## Decode: a packet written out for every command (30_encoding.md R71, R73), and the refusals of 95_test_vectors.md section 6 -/

theorem test_decode_shaInit : decode [0x10] = .command .shaInit := by decide

theorem test_decode_shaUpdate : decode [0x11, 0x61, 0x62, 0x63] = .command (.shaUpdate [0x61, 0x62, 0x63]) := by decide

theorem test_decode_shaFinal : decode [0x12] = .command .shaFinal := by decide

theorem test_decode_crc8 : decode [0x20, 0x5A, 0x3C, 0x01] = .command (.crc8 0x5A [0x3C, 0x01]) := by decide

theorem test_decode_snCheck :
    decode [0x21, 0x3C, 0x01, 0x02, 0x03, 0x04, 0x05, 0x06, 0x91] =
      .command (.snCheck #v[0x3C, 0x01, 0x02, 0x03, 0x04, 0x05, 0x06, 0x91]) := by decide

theorem test_decode_mac :
    decode (0x30 :: (ramp 0 55 ++ [0x80] ++ ramp 0xA0 16)) = .command (.mac macMessage macSecret) := by decide +kernel

theorem test_decode_scramble : decode (0x40 :: ramp 1 20) = .command (.scramble (bytes 20 (ramp 1 20))) := by decide +kernel

theorem test_decode_derive :
    decode (0x41 :: (ramp 0x11 8 ++ ramp 0x40 64 ++ ramp 0xC0 8)) =
      .command (.derive (bytes 8 (ramp 0x11 8)) (bytes 64 (ramp 0x40 64)) (bytes 8 (ramp 0xC0 8))) := by decide +kernel

/-- V-E1, V-E6, V-E7, V-E10, V-E11: too short. -/
theorem test_decode_refuses_short :
    ([[], [0x20], [0x21, 0x3C], 0x30 :: List.replicate 71 0, 0x40 :: List.replicate 19 0,
      0x41 :: List.replicate 79 0].map decode) = List.replicate 6 (.refused .absent) := by decide +kernel

/-- V-E2 to V-E5, V-E8, V-E10: reserved, or too long. -/
theorem test_decode_refuses_illegal :
    ([[0x99], [0x00], [0x13], [0x22], [0x31], [0x42], [0xFF], [0x10, 0x00], [0x12, 0x00], 0x21 :: List.replicate 9 0,
      0x30 :: List.replicate 73 0].map decode) = List.replicate 11 (.refused .illegal) := by decide +kernel

/-- V-E12: too long whatever the payload limit is. -/
theorem test_decode_refuses_long_derive :
    decodeWith .unbounded (0x41 :: List.replicate 81 0) = .refused .illegal ∧
    decodeWith (.bounded 0) (0x41 :: List.replicate 81 0) = .refused .illegal := by decide +kernel

/-- V-E14. -/
theorem test_decode_payload_limit :
    decodeWith (.bounded 0) (0x11 :: List.replicate 81 0) = .refused .illegal ∧
    decodeWith (.bounded 0) (0x11 :: List.replicate 80 0) = .command (.shaUpdate (List.replicate 80 0)) ∧
    decodeWith .unbounded (0x11 :: List.replicate 81 0) = .command (.shaUpdate (List.replicate 81 0)) := by decide +kernel

/-- The opcode of every command, and operand order, in the encoder (30_encoding.md R73, R80). -/
theorem test_encode :
    encode (.crc8 0x00 [0x3C, 0x01, 0x02]) = [0x20, 0x00, 0x3C, 0x01, 0x02] ∧
    encode (.snCheck #v[1, 2, 3, 4, 5, 6, 7, 8]) = [0x21, 1, 2, 3, 4, 5, 6, 7, 8] ∧
    encode (.mac macMessage macSecret) = 0x30 :: (ramp 0 55 ++ [0x80] ++ ramp 0xA0 16) := by decide +kernel

/-- The opcode table's words are the eight opcode bytes. -/
theorem test_table_words :
    ([0x10, 0x11, 0x12, 0x20, 0x21, 0x30, 0x40, 0x41].map (fun w => (decodeTableWord 8 w).map Instr.opcode)) =
      [some .shaInit, some .shaUpdate, some .shaFinal, some .crc8, some .snCheck, some .mac, some .scramble, some .derive] ∧
    decodeTableWord 8 0x13 = none := by decide +kernel

/-- The texts of 30_encoding.md R80. -/
theorem test_text :
    Machine.Instr.text (.shaUpdate [0x61, 0x62, 0x63]) = "SHA_UPDATE 61 62 63" ∧ Machine.Instr.text .shaInit = "SHA_INIT" ∧
    Machine.Instr.text (.crc8 0x00 [0x3C, 0x01, 0x02]) = "CRC8 00, 3C 01 02" ∧
    ({ status := .ok, result := [0xA9, 0x99] } : Reply).text = "-> OK A9 99" := by decide +kernel

/-! ## Primitives and the compression (95_test_vectors.md sections 2.1 and 2.2) -/

theorem test_rotl : rotl 0x67452301 5 = 0xE8A4602C ∧ rotl 0xEFCDAB89 30 = 0x7BF36AE2 ∧ rotl 0x80000001 1 = 0x00000003 := by decide

theorem test_framing :
    be32 0x61 0x62 0x63 0x80 = 0x61626380 ∧ beBytes 0x000001B8 = [0x00, 0x00, 0x01, 0xB8] ∧
    leBytes 0x8BD94794 = [0x94, 0x47, 0xD9, 0x8B] := by decide

/-- The first two rounds of the block of "abc". -/
theorem test_first_rounds :
    compressionRound 0 0x61626380 Config.iv =
      { a := 0x0116FC33, b := 0x67452301, c := 0x7BF36AE2, d := 0x98BADCFE, e := 0x10325476 } ∧
    compressionRound 1 0 (compressionRound 0 0x61626380 Config.iv) =
      { a := 0x8990536D, b := 0x0116FC33, c := 0x59D148C0, d := 0x7BF36AE2, e := 0x98BADCFE } := by decide +kernel

/-- The registers after round 79 (40_sha1_engine_a.md R104). -/
theorem test_last_round :
    rounds Config.iv (schedule (wordsOfBytes ([0x61, 0x62, 0x63, 0x80] ++ List.replicate 59 0 ++ [0x18]))) =
      { a := 0x42541B35, b := 0x5738D5E1, c := 0x21834873, d := 0x681E6DF6, e := 0xD8FDF6AD } := by decide +kernel

/-! ## The commands, one step each -/

/-- V-A5, from the corrupted context of V-A8. -/
theorem test_shaInit_recovers :
    (after (waiting { abcClosed with err := .sequence } [0x10])).ctx = openCtx 0 0 0 ∧
    (after (waiting { abcClosed with err := .sequence } [0x10])).output = [[0x00]] := by decide +kernel

/-- V-A7: input after final. -/
theorem test_shaUpdate_after_final :
    after (waiting abcClosed [0x11, 0x64]) = { ctx := { abcClosed with err := .sequence }, input := [], output := [[0x03]] } := by
  decide +kernel

/-- V-A14: the counter overflows on the first byte, the second is not accepted. -/
theorem test_shaUpdate_overflow :
    let t := after (waiting (openCtx 63 0xFFFFFFFF 0xFFFFFFF8) [0x11, 0x55, 0x66])
    t.output = [[0x02]] ∧ t.ctx.err = .tooLong ∧ t.ctx.idx = 0 ∧ t.ctx.lenHi = 0 ∧ t.ctx.lenLo = 0 ∧
    t.ctx.buf[63] = 0x55 ∧ t.ctx.buf[0] = 0x00 := by decide +kernel

/-- V-A2, from the context that the three bytes leave. -/
theorem test_shaFinal_abc :
    let c : Ctx := { openCtx 3 0 0x18 with buf := bytes 64 ([0x61, 0x62, 0x63] ++ List.replicate 61 0) }
    after (waiting c [0x12]) = { ctx := abcClosed, input := [], output := [0x00 :: abcDigest] } := by decide +kernel

/-- V-A4 for 56 bytes: the pad takes two blocks. -/
theorem test_shaFinal_two_blocks :
    (after (waiting { openCtx 56 0 0x1C0 with buf := bytes 64 (ramp 0 56 ++ List.replicate 8 0) } [0x12])).ctx.h =
      { a := 0x636E2EC6, b := 0x98DAC903, c := 0x498E648B, d := 0xD2F3AF64, e := 0x1D3C88CB } := by decide +kernel

/-- V-C1 and V-C4 under both bit orders. -/
theorem test_crc8 :
    crc8 .lsbFirst 0x00 [0x3C, 0x01, 0x02, 0x03, 0x04, 0x05, 0x06] = 0x91 ∧
    crc8 .msbFirst 0x00 [0x3C, 0x01, 0x02, 0x03, 0x04, 0x05, 0x06] = 0x2C ∧
    crc8 .lsbFirst 0x00 (ramp 0x31 9) = 0xA1 ∧ crc8 .msbFirst 0x00 (ramp 0x31 9) = 0xA2 := by decide +kernel

/-- V-C5b and V-C5f; V-C5: no data gives the initial value. -/
theorem test_crc8_initial_value :
    crc8 .lsbFirst 0xFF [0x00] = 0x35 ∧ crc8 .msbFirst 0xFF [0x00] = 0xAC ∧
    crc8 .lsbFirst 0x00 [0x02, 0x1C, 0xB8, 0x01, 0x00, 0x00, 0x00] = 0xA2 ∧
    (after (waiting abcClosed [0x20, 0x5A])).output = [[0x00, 0x5A]] := by decide +kernel

/-- V-C7 to V-C9, V-C11 and V-C12. -/
theorem test_snCheck :
    serialAccepted .lsbFirst #v[0x3C, 1, 2, 3, 4, 5, 6, 0x91] = true ∧
    serialAccepted .msbFirst #v[0x3C, 1, 2, 3, 4, 5, 6, 0x2C] = true ∧
    serialAccepted .lsbFirst #v[0x3C, 1, 2, 3, 4, 5, 6, 0x90] = false ∧
    serialAccepted .lsbFirst #v[0x3D, 1, 2, 3, 4, 5, 6, 0xAC] = false ∧
    serialAccepted .lsbFirst #v[0x3C, 0, 0, 0, 0, 0, 0, 0x11] = true := by decide +kernel

/-- V-C11 as a step: zero bytes have CRC zero but not the tag, whatever the bit order. -/
theorem test_snCheck_rejects_zeros :
    after (waiting abcClosed (0x21 :: List.replicate 8 0)) = { ctx := abcClosed, input := [], output := [[0x00, 0x00]] } := by
  have rejected (order : Crc8Order) : serialAccepted order (bytes 8 (List.replicate 8 0)) = false := by
    cases order <;> decide +kernel
  have answered : after (waiting abcClosed (0x21 :: List.replicate 8 0)) =
      ({ ctx := abcClosed, input := [], output := [] } : State).complete abcClosed
        (snCheckReply Config.crc8Order (bytes 8 (List.replicate 8 0))) := rfl
  rw [answered, snCheckReply, rejected]
  rfl

/-- V-B1, both values of `MAC_FEEDFORWARD`. -/
theorem test_mac :
    (macReply true macMessage macSecret).packet =
      [0x00, 0x94, 0x47, 0xD9, 0x8B, 0x27, 0x16, 0x6E, 0xAF, 0x34, 0x29, 0x9C, 0x5C, 0xC8, 0xB4, 0x28, 0x00, 0xA7, 0xC2, 0x3F,
        0x6E] ∧
    (macReply false macMessage macSecret).packet =
      [0x00, 0xA4, 0x65, 0x06, 0xC8, 0xB1, 0xC1, 0x3B, 0x9F, 0x36, 0x4C, 0xE1, 0xC3, 0x3F, 0x09, 0x5B, 0x10, 0xA6, 0x9F, 0xFA,
        0x06] := by decide +kernel

/-- V-B2: the last message byte is used. -/
theorem test_mac_uses_last_message_byte :
    macWords false (bytes 56 (ramp 0 56)) macSecret =
      { a := 0x5A87CE3A, b := 0x955E654A, c := 0x63ACB253, d := 0x1C86CEE6, e := 0x5C22B2BE } := by decide +kernel

/-- V-D1 with `EX1` and with `EX2`. -/
theorem test_scramble :
    (scrambleReply tableEx1 (bytes 20 abcDigest)).packet =
      [0x00, 0x13, 0xA7, 0x1B, 0x47, 0x3F, 0x56, 0x43, 0x06, 0xBA, 0x3E, 0x25, 0x71, 0x78, 0x50, 0xC2, 0x6C] ∧
    (scrambleReply { pairs := illustrativeTable2 } (bytes 20 abcDigest)).packet =
      [0x00, 0xC5, 0x5B, 0x6E, 0x4E, 0x36, 0x23, 0xBF, 0xD0, 0xBA, 0x3E, 0x25, 0x71, 0x78, 0x50, 0xC2, 0x6C] := by decide +kernel

/-- 43_derive_scramble.md R182's list that is not well-formed: in place and in list order, and not its own inverse. -/
theorem test_scramble_in_order :
    (scramblePairs [⟨0, 1⟩, ⟨1, 0⟩] (bytes 16 [0xAA, 0x0F])).toList.take 2 = [0xA5, 0xAA] ∧
    (scramblePairs [⟨0, 1⟩, ⟨1, 0⟩] (bytes 16 [0xA5, 0xAA])).toList.take 2 = [0x0F, 0xA5] := by decide +kernel

/-- V-D3 with `EX1`: the password and the context left. -/
theorem test_derive :
    let r := derive tableEx1 (bytes 8 [0x11, 0x22, 0x33, 0x44, 0x55, 0x66, 0x77, 0x88]) (bytes 64 (ramp 0 64))
      #v[0x3C, 1, 2, 3, 4, 5, 6, 0x91] Ctx.zero
    r.2.packet = [0x00, 0xB6, 0x94, 0x91, 0x2D, 0x7F, 0xE3, 0x69, 0xFF] ∧
    r.1 = { abcClosed with
      h := { a := 0x8D1A8B74, b := 0xA01C36A3, c := 0x3B8E1A59, d := 0xDFFF5F5C, e := 0x37D390F4 } } := by decide +kernel

/-- V-D5 with `EX2`. -/
theorem test_derive_zeros :
    (derive { pairs := illustrativeTable2 } (bytes 8 []) (bytes 64 []) (bytes 8 []) abcClosed).2.packet =
      [0x00, 0x53, 0x5C, 0x94, 0xD1, 0xFD, 0x03, 0x66, 0x51] := by decide +kernel

/-! ## The step -/

/-- V-E2 as a step: refused, consumed, answered, and nothing else. -/
theorem test_step_refuses_reserved :
    after (waiting abcClosed [0x99]) = { ctx := abcClosed, input := [], output := [[0x04]] } := by decide +kernel

/-- A delivered word is the next packet decoded: V-A11 on the reset state. -/
theorem test_step_withFetchWord :
    (after (State.reset.withFetchWord 8 0x12)).ctx.h =
      { a := 0x0FFD8D43, b := 0xB4E33C7C, c := 0x53461BD1, d := 0x0F27A546, e := 0x1050D90D } := by decide +kernel

/-! ## The host's round (70_reset_and_hazards.md R237, R238; 60_exceptions.md R213) -/

/-- A challenge write that fails twice ends the round; one that fails once does not. -/
theorem test_challenge_retried_once :
    ((RoundPhase.idle false).next .transportFailed).next .transportFailed = .finished .transportFailed ∧
    ((RoundPhase.idle false).next .transportFailed).next .transportDone = .challengeSent := by decide

/-- Reads of the device data move no phase, before the first transition or after it; a failed one ends the round. -/
theorem test_deviceData_reads :
    ((RoundPhase.idle false).next (.deviceDataRead true)).next .transportDone = .challengeSent ∧
    RoundPhase.identityFetched.next (.deviceDataRead true) = .identityFetched ∧
    (RoundPhase.idle false).next (.deviceDataRead false) = .finished .transportFailed := by decide

/-- The error classes of 60_exceptions.md R209. -/
theorem test_error_classes :
    responseHostError .snCheck [0x00, 0x00] = some .identityInvalid ∧ responseHostError .snCheck [0x00, 0x01] = none ∧
    responseHostError .shaFinal [0x02] = some .sequenceError ∧ responseHostError .shaUpdate [0x03] = some .sequenceError ∧
    responseHostError .mac [0x01] = some .sequenceError ∧ comparisonHostError [0x01, 0x02] [0x01, 0x02] = none ∧
    comparisonHostError [0x01, 0x02] [0x01, 0x03] = some .responseMismatch := by decide

/-- The host data of program P3 (95_test_vectors.md section 7), with the device's response for `MAC_FEEDFORWARD = true`. -/
def roundP3 : RoundInputs where
  challenge := bytes 64 ((List.range 64).map (fun i => BitVec.ofNat 8 (37 * i + 11)))
  serial := #v[0x3C, 1, 2, 3, 4, 5, 6, 0x91]
  deviceMac := bytes 8 [0x11, 0x22, 0x33, 0x44, 0x55, 0x66, 0x77, 0x88]
  userData := bytes 64 (ramp 0 64)
  secretTail := bytes 8 []
  deviceResponse := bytes 20
    [0x0C, 0x6A, 0x25, 0x32, 0x2C, 0x8B, 0xBC, 0x38, 0xC6, 0xDA, 0xD9, 0x4B, 0x89, 0x4F, 0x96, 0x91, 0xF4, 0x65, 0x9A, 0xA5]

/-- The host after a startup round that authenticated, with nothing pending. -/
def hostAuthenticated : HostLoop :=
  { HostLoop.startup State.reset with process := { status := .authenticated, started := 1, halts := 0, block := State.reset } }

/-- 70_reset_and_hazards.md R240: no round without the signal; a signal begins one and is consumed; firings during the round leave
one pending wake-up, and begin no second round. -/
theorem test_timer_signal :
    hostAuthenticated.beginRound roundP3 = hostAuthenticated ∧
    let begun := hostAuthenticated.postSignal.beginRound roundP3
    begun.process.started = 2 ∧ begun.pending = false ∧ begun.inFlight ≠ none ∧
    begun.postSignal.postSignal.beginRound roundP3 = begun.postSignal ∧ begun.postSignal.pending = true := by decide +kernel

/-- The startup round needs no signal and no timer runs before it has ended; if it fails, the host stays halted. -/
theorem test_startup_round :
    let begun := (HostLoop.startup State.reset).postSignal.beginRound roundP3
    begun.process.started = 1 ∧ begun.pending = false ∧ begun.postSignal = begun ∧
    let halted := (begun.report .failed).report .failed
    halted.process.status = .securityFailure ∧ halted.process.halts = 1 ∧ halted.inFlight = none ∧
    halted.postSignal.beginRound roundP3 = halted := by decide +kernel

/-- The message and the secret of P3's step 3. -/
def macMessageP3 : Bytes 56 :=
  bytes 56 ((List.range 56).map (fun i => BitVec.ofNat 8 (37 * i + 11)))

@[inherit_doc macMessageP3]
def macSecretP3 : Bytes 16 :=
  bytes 16 [0xB6, 0x94, 0x91, 0x2D, 0x7F, 0xE3, 0x69, 0xFF, 0, 0, 0, 0, 0, 0, 0, 0]

/-- Step 3 of P3: the command after the `DERIVE` response of step 2, and its result against the device's response. -/
theorem test_round_P3 :
    roundMac roundP3 [0x00, 0xB6, 0x94, 0x91, 0x2D, 0x7F, 0xE3, 0x69, 0xFF] = .mac macMessageP3 macSecretP3 ∧
    comparisonHostError (macReply true macMessageP3 macSecretP3).result roundP3.deviceResponse.toList = none ∧
    comparisonHostError (macReply false macMessageP3 macSecretP3).result roundP3.deviceResponse.toList =
      some .responseMismatch := by decide +kernel

/-! ## Witnesses: one input for each obligation with hypotheses that meets all of them -/

theorem witness_DecodeOfEncode :
    (Instr.shaUpdate (List.replicate 80 0xFF)).wellFormed (.bounded 0) = true ∧
    (Instr.shaUpdate (List.replicate 200 0xFF)).wellFormed .unbounded = true ∧
    (Instr.crc8 0xFF []).wellFormed (.bounded 0) = true := by decide

theorem witness_EncodeOfDecode :
    decodeWith (.bounded 0) [0x11, 0x61] = .command (.shaUpdate [0x61]) ∧
    decodeWith .unbounded (0x40 :: ramp 1 20) = .command (.scramble (bytes 20 (ramp 1 20))) := by decide +kernel

/-- A reserved byte next to a defined one; every listed row; a payload one above the bound, and one byte short, exact and long. -/
theorem witness_DecodeProcedure :
    ((0x13 : Byte) ∉ opcodeLengths.map Prod.fst) ∧
    (((0x21 : Byte), 9, true) ∈ opcodeLengths ∧ ((0x11 : Byte), 1, false) ∈ opcodeLengths) ∧
    (∃ m, (PayloadLimit.bounded 0).bound = some m ∧ m < (List.replicate 81 (0 : Byte)).length) ∧
    ((List.replicate 7 (0 : Byte)).length + 1 < 9) ∧
    (9 < (List.replicate 9 (0 : Byte)).length + 1) ∧
    decodeWith .unbounded (0x21 :: List.replicate 8 0) = .command (.snCheck (bytes 8 [])) :=
  ⟨by decide, by decide, ⟨80, rfl, by decide⟩, by decide, by decide, by decide +kernel⟩

theorem witness_DecodeProcedure_refusal :
    (waiting abcClosed [0x99]).input = [[0x99]] ∧ decode [0x99] = .refused .illegal ∧
    (waiting abcClosed []).input = [[]] ∧ decode [] = .refused .absent := by decide

theorem witness_ReservedOpcodesRefused :
    (0x99 : Byte) ∉ opcodeLengths.map Prod.fst ∧ (0x00 : Byte) ∉ opcodeLengths.map Prod.fst ∧
    (0xFF : Byte) ∉ opcodeLengths.map Prod.fst := by decide

theorem witness_StepRunsDecodedCommand : (waiting abcClosed [0x12]).input = [[0x12]] ∧ decode [0x12] = .command .shaFinal := by
  decide

theorem witness_StepIdlesWithoutPacket : State.reset.input = [] := rfl

theorem witness_OneResponsePerPacket :
    (waiting abcClosed [0x10]).input = [[0x10]] ∧ decode [0x10] = .command .shaInit ∧
    (waiting abcClosed [0x99]).input = [[0x99]] ∧ decode [0x99] = .refused .illegal := by decide

theorem witness_PacketStreamRunsCommands :
    (∀ i ∈ [Instr.shaInit, .crc8 0x00 [0x3C], .shaFinal], i.wellFormed Config.maxPayload = true) ∧
    ({ State.reset with input := [[0x10], [0x20, 0x00, 0x3C], [0x12], [0x99]] } : State).input =
      [Instr.shaInit, .crc8 0x00 [0x3C], .shaFinal].map encode ++ [[0x99]] := by
  refine ⟨fun i h => Instr.wellFormed_of_short _ i ?_, by decide⟩
  simp only [List.mem_cons, List.not_mem_nil, or_false] at h
  rcases h with rfl | rfl | rfl <;> decide

/-- Both ends of the buffer, no wrap, a wrap of the low half, a wrap of both; and an index of 62, next to the full case. -/
theorem witness_AcceptByteFields :
    ((openCtx 0 0 0).finalized = false ∧ (openCtx 0 0 0).err = .clear ∧ (openCtx 0 0 0).idx ≤ 63) ∧
    ((openCtx 62 0 0x1F0).finalized = false ∧ (openCtx 62 0 0x1F0).err = .clear ∧ (openCtx 62 0 0x1F0).idx ≤ 63) ∧
    ((openCtx 63 0 0xFFFFFFF8).finalized = false ∧ (openCtx 63 0 0xFFFFFFF8).err = .clear ∧
      (openCtx 63 0 0xFFFFFFF8).idx ≤ 63) ∧
    ((openCtx 63 0xFFFFFFFF 0xFFFFFFF8).finalized = false ∧ (openCtx 63 0xFFFFFFFF 0xFFFFFFF8).err = .clear ∧
      (openCtx 63 0xFFFFFFFF 0xFFFFFFF8).idx ≤ 63) := by decide

/-- One state for each of the three clauses. -/
theorem witness_ShaUpdateResult :
    (waiting abcClosed []).ctx.finalized = true ∧
    ((waiting { openCtx 0 0 0 with err := .tooLong } []).ctx.finalized = false ∧
      (waiting { openCtx 0 0 0 with err := .tooLong } []).ctx.err ≠ .clear) ∧
    ((waiting (openCtx 63 0 0x1F8) []).ctx.finalized = false ∧ (waiting (openCtx 63 0 0x1F8) []).ctx.err = .clear) := by decide

/-- The fresh context meets the invariants. -/
theorem openCtx_invariant : (openCtx 0 0 0).Invariant :=
  ⟨by decide, by decide, by decide, by decide, by decide⟩

theorem witness_ShaUpdateAbsorbsBlocks :
    (openCtx 0 0 0).Invariant ∧ (openCtx 0 0 0).finalized = false ∧ (openCtx 0 0 0).err = .clear ∧
    (openCtx 0 0 0).bitLength + 8 * (ramp 0 130).length < 2 ^ 64 :=
  ⟨openCtx_invariant, by decide, by decide, by decide +kernel⟩

/-- The last length that fits: one more byte, and the counter would wrap. -/
theorem witness_ShaUpdateAbsorbsBlocks_boundary :
    (openCtx 62 0xFFFFFFFF 0xFFFFFFF0).Invariant ∧ (openCtx 62 0xFFFFFFFF 0xFFFFFFF0).finalized = false ∧
    (openCtx 62 0xFFFFFFFF 0xFFFFFFF0).err = .clear ∧
    (openCtx 62 0xFFFFFFFF 0xFFFFFFF0).bitLength + 8 * [(0x55 : Byte)].length < 2 ^ 64 :=
  ⟨⟨by decide, by decide +kernel, by decide, by decide, by decide⟩, by decide, by decide, by decide +kernel⟩

theorem witness_ShaUpdateOverflow :
    (openCtx 63 0xFFFFFFFF 0xFFFFFFF8).finalized = false ∧ (openCtx 63 0xFFFFFFFF 0xFFFFFFF8).err = .clear ∧
    (openCtx 63 0xFFFFFFFF 0xFFFFFFF8).idx = 63 ∧ (openCtx 63 0xFFFFFFFF 0xFFFFFFF8).lenHi = 0xFFFFFFFF ∧
    (openCtx 63 0xFFFFFFFF 0xFFFFFFF8).lenLo = 0xFFFFFFF8 := by decide

/-- One state for each clause; the open one at the fill indexes 0, 55, 56 and 63, where one block becomes two. -/
theorem witness_ShaFinalResult :
    ({ abcClosed with err := .sequence } : Ctx).idx ≤ 63 ∧ ({ abcClosed with err := .sequence } : Ctx).err ≠ .clear ∧
    abcClosed.idx ≤ 63 ∧ abcClosed.err = .clear ∧ abcClosed.finalized = true ∧
    (∀ i ∈ [0, 55, 56, 63], (openCtx i 0 0).idx ≤ 63 ∧ (openCtx i 0 0).err = .clear ∧ (openCtx i 0 0).finalized = false) := by
  decide

theorem witness_FinalIsIdempotent :
    exec .shaFinal (waiting abcClosed []) = .next ((waiting abcClosed []).complete abcClosed { status := .ok, result := abcDigest }) ∧
    ((waiting abcClosed []).complete abcClosed { status := .ok, result := abcDigest }).output =
      (waiting abcClosed []).output ++ [0x00 :: abcDigest] ∧
    (∀ i ∈ [Instr.crc8 0x00 [], .scramble (bytes 20 [])], ignoresContext i = true) := by
  have emitted : shaFinal abcClosed = (abcClosed, { status := .ok, result := abcDigest }) := by decide +kernel
  refine ⟨?_, by decide, by decide⟩
  rw [exec_shaFinal, show (waiting abcClosed []).ctx = abcClosed from rfl, emitted]

theorem witness_StickyErrorPersists :
    ({ abcClosed with err := .sequence } : Ctx).Invariant ∧ ({ abcClosed with err := .sequence } : Ctx).err ≠ .clear ∧
    ({ openCtx 0 0 0 with err := .tooLong } : Ctx).Invariant ∧ ({ openCtx 0 0 0 with err := .tooLong } : Ctx).err ≠ .clear ∧
    (∀ i ∈ [Instr.shaUpdate [0x61], .shaFinal, .crc8 0x00 []], restartsContext i = false) :=
  ⟨⟨by decide, by decide, by decide, by decide, by decide⟩, by decide,
    ⟨by decide, by decide, by decide, by decide, by decide⟩, by decide, by decide⟩

theorem witness_StreamedDigestIsStandard : 8 * [[0x61], [], ([0x62, 0x63] : List Byte)].flatten.length < 2 ^ 64 := by decide

theorem witness_StepKeepsInvariant :
    (waiting (openCtx 0 0 0) [0x11, 0x61]).ctx.Invariant ∧
    step (waiting (openCtx 0 0 0) [0x11, 0x61]) = .next (after (waiting (openCtx 0 0 0) [0x11, 0x61])) := by
  refine ⟨openCtx_invariant, ?_⟩
  have read : decode [0x11, 0x61] = .command (.shaUpdate [0x61]) := by decide
  simp only [after, step, waiting, State.nextPacket, List.head?_cons, read, exec_shaUpdate]

/-- The first and the last round of each phase have the constants of 40_sha1_engine_a.md R101. -/
theorem witness_HashConstants :
    ([0, 19, 20, 39, 40, 59, 60, 79].map Config.roundConstant) =
      [0x5A827999, 0x5A827999, 0x6ED9EBA1, 0x6ED9EBA1, 0x8F1BBCDC, 0x8F1BBCDC, 0xCA62C1D6, 0xCA62C1D6] ∧
    (19 ≤ 19 ∧ (20 ≤ 20 ∧ 20 ≤ 39) ∧ (40 ≤ 59 ∧ 59 ≤ 59) ∧ 60 ≤ 79 ∧ 79 ≤ 79) := by decide

/-- The phases' ends, and two operand triples that agree in bit 31 and differ elsewhere. -/
theorem witness_RoundFunctions :
    (19 ≤ 19 ∧ (20 ≤ 39 ∧ 39 ≤ 39) ∧ (40 ≤ 40 ∧ 40 ≤ 59) ∧ 60 ≤ 79 ∧ 79 ≤ 79) ∧
    (31 < 32 ∧ (0x80000000 : Word).getLsbD 31 = (0xFFFFFFFF : Word).getLsbD 31 ∧
      (0 : Word).getLsbD 31 = (0x7FFFFFFF : Word).getLsbD 31 ∧ (1 : Word).getLsbD 31 = (2 : Word).getLsbD 31) := by decide

theorem witness_ScheduleExpansion : (15 ≤ 15) ∧ (16 ≤ 16 ∧ 16 ≤ 79) ∧ (16 ≤ 79 ∧ 79 ≤ 79) := by decide

theorem witness_RotateLeftFormula : (0 < 1 ∧ 1 < 32) ∧ (0 < 31 ∧ 31 < 32) := by decide

theorem witness_DigestEmission : 4 ≤ 4 ∧ 3 ≤ 3 := by decide

/-- The passing serial numbers of V-C2, first and last byte, first and last bit. -/
theorem witness_CrcDetectsSingleBit :
    (0 < 8 ∧ 7 < 8) ∧ [(0x3C : Byte), 1, 2, 3, 4, 5, 6, 0x91].length = 8 ∧
    crc8 .lsbFirst 0x00 [0x3C, 1, 2, 3, 4, 5, 6, 0x91] = 0x00 ∧
    crc8 .msbFirst 0x00 [0x3C, 1, 2, 3, 4, 5, 6, 0x2C] = 0x00 := by decide +kernel

theorem witness_MacBlock : (1 ≤ 13 ∧ 1 ≠ 0 ∧ 1 ≠ 12) ∧ (11 ≤ 13 ∧ 11 ≠ 0 ∧ 11 ≠ 12) ∧ (13 ≤ 13 ∧ 13 ≠ 0 ∧ 13 ≠ 12) := by decide

theorem witness_MacEmissionReversesDigest : 0 ≤ 19 ∧ 19 ≤ 19 := by decide

/-- The message of V-B4: the overwritten bytes of V-B1's set to `FF`. -/
def macMessageOther : Bytes 56 :=
  bytes 56 (List.replicate 4 0xFF ++ ramp 4 44 ++ List.replicate 4 0xFF ++ [0x34, 0x35, 0x36, 0x80])

/-- The secret of V-B4: the unread bytes of V-B1's set to `FF`. -/
def macSecretOther : Bytes 16 :=
  bytes 16 (ramp 0xA0 8 ++ List.replicate 8 0xFF)

/-- V-B4: the bytes that do not matter all set to `FF`. -/
theorem witness_MacIgnoresOverwrittenBytes :
    (∀ i, 4 ≤ i → i ≤ 47 → macMessage.toList.getD i 0 = macMessageOther.toList.getD i 0) ∧
    (∀ i, 52 ≤ i → i ≤ 55 → macMessage.toList.getD i 0 = macMessageOther.toList.getD i 0) ∧
    (∀ i, i ≤ 7 → macSecret.toList.getD i 0 = macSecretOther.toList.getD i 0) ∧
    macMessage ≠ macMessageOther ∧ macSecret ≠ macSecretOther := by
  have message : ∀ i ∈ List.range 56, (4 ≤ i ∧ i ≤ 47) ∨ (52 ≤ i ∧ i ≤ 55) →
      macMessage.toList.getD i 0 = macMessageOther.toList.getD i 0 := by decide +kernel
  have secret : ∀ i ∈ List.range 8, macSecret.toList.getD i 0 = macSecretOther.toList.getD i 0 := by decide +kernel
  exact ⟨fun i h k => message i (List.mem_range.mpr (by omega)) (.inl ⟨h, k⟩),
    fun i h k => message i (List.mem_range.mpr (by omega)) (.inr ⟨h, k⟩),
    fun i h => secret i (List.mem_range.mpr (by omega)), by decide +kernel, by decide +kernel⟩

theorem witness_MacRelatesToDigest : macMessage[55] = 0x80 := by decide +kernel

/-- A destination of the table, and a position that is none. -/
theorem witness_ScrambleClosedForm :
    (⟨7, 15⟩ : ScramblePair) ∈ tableEx1.pairs ∧ (∀ p ∈ tableEx1.pairs, p.dst ≠ (8 : Fin 16)) := by decide

theorem witness_ContextFreeCommands :
    ignoresContext (.crc8 0 []) = true ∧ ignoresContext (.snCheck (bytes 8 [])) = true ∧
    ignoresContext (.mac macMessage macSecret) = true ∧ ignoresContext (.scramble (bytes 20 [])) = true := by decide

/-- A corrupted and a finalized context, and a command that does not restart. -/
theorem witness_OnlyRestartsClear :
    restartsContext .shaFinal = false ∧
    exec .shaFinal (waiting { abcClosed with err := .sequence } []) =
      .next ((waiting { abcClosed with err := .sequence } []).complete { abcClosed with err := .sequence }
        { status := .errSequence, result := [] }) ∧
    (waiting { abcClosed with err := .sequence } []).ctx.err ≠ .clear ∧
    (waiting { abcClosed with err := .sequence } []).ctx.finalized = true :=
  ⟨by decide, rfl, by decide, by decide⟩

/-- A serial number that fails the gate under both bit orders, and one that each order accepts. -/
theorem witness_RoundAuthenticates :
    serialAccepted Config.crc8Order (bytes 8 []) = false ∧
    serialAccepted .lsbFirst #v[0x3C, 1, 2, 3, 4, 5, 6, 0x91] = true ∧
    serialAccepted .msbFirst #v[0x3C, 1, 2, 3, 4, 5, 6, 0x2C] = true := by
  refine ⟨?_, by decide +kernel, by decide +kernel⟩
  cases Config.crc8Order <;> decide +kernel

theorem witness_ComparisonFindsDifference :
    [(0x01 : Byte), 0x02].length = [(0x01 : Byte), 0x03].length ∧ ([] : List Byte).length = ([] : List Byte).length := by decide

theorem witness_SchedulerHaltsOnce :
    (∀ o ∈ [RoundOutcome.authenticated, .authenticated], o = .authenticated) ∧
    ([RoundOutcome.authenticated, .mismatch, .authenticated] =
        [RoundOutcome.authenticated] ++ RoundOutcome.mismatch :: [RoundOutcome.authenticated] ∧
      (∀ x ∈ [RoundOutcome.authenticated], x = .authenticated) ∧ RoundOutcome.mismatch ≠ .authenticated) := by decide

/-- Every phase that the first clause speaks of. -/
theorem witness_TransportFailureEndsRound :
    ∀ phase ∈ [RoundPhase.idle true, .challengeSent, .computeTriggered, .identityFetched, .locallyVerified, .responseFetched],
      phase ≠ .idle false ∧ ∀ o, phase ≠ .finished o := by
  intro phase h
  simp only [List.mem_cons, List.not_mem_nil, or_false] at h
  rcases h with rfl | rfl | rfl | rfl | rfl | rfl <;> exact ⟨by decide, fun o => by cases o <;> decide⟩

theorem witness_ErrorsBubbleUp : abcDigest.length = roundP3.deviceResponse.toList.length ∧ ([] : List Byte).length = 0 :=
  ⟨rfl, rfl⟩

/-- A round whose serial number is zero bytes, which the gate rejects under both bit orders. -/
def roundRejected : RoundInputs :=
  { roundP3 with serial := bytes 8 [] }

theorem witness_RoundFollowsTransport : (authenticationRound roundRejected State.reset).2 ≠ .authenticated := by
  have rejected : (snCheckReply Config.crc8Order (bytes 8 [])).packet = [0x00, 0x00] := by
    cases Config.crc8Order <;> decide +kernel
  have read : decode (encode (.snCheck roundRejected.serial)) = .command (.snCheck (bytes 8 [])) := by decide
  have verified : (localVerification roundRejected State.reset).2 = .error .identityInvalid := by
    simp only [localVerification, issue_command read (exec_snCheck _ _), rejected]
    rfl
  simp only [authenticationRound, verified, HostError.outcome, ne_eq, reduceCtorEq, not_false_eq_true]

/-- A round whose challenge write fails twice. -/
theorem witness_HostStopsAtSecurityFailure :
    (runHost [{ inputs := roundP3, events := [.failed, .failed] }] State.reset).status = .securityFailure := by decide +kernel

end Sys2Proof.Tests
end

section
/-! The framing of words as bytes (00_scope.md R11): `be32` as a number, and as the inverse of `beBytes`. -/

namespace Sys2Proof.Machine

/-- Appending a byte below a bit string is one Horner step in base 256. -/
theorem toNat_append_byte {n : Nat} (high : BitVec n) (low : Byte) :
    (high ++ low).toNat = high.toNat * 2 ^ 8 + low.toNat := by
  rw [BitVec.toNat_append, ← Nat.shiftLeft_add_eq_or_of_lt low.isLt, Nat.shiftLeft_eq]

theorem be32_toNat (b0 b1 b2 b3 : Byte) :
    (be32 b0 b1 b2 b3).toNat = b0.toNat * 2 ^ 24 + b1.toNat * 2 ^ 16 + b2.toNat * 2 ^ 8 + b3.toNat :=
  calc (be32 b0 b1 b2 b3).toNat
      = ((b0.toNat * 2 ^ 8 + b1.toNat) * 2 ^ 8 + b2.toNat) * 2 ^ 8 + b3.toNat := by
        simp only [be32, toNat_append_byte]
    _ = b0.toNat * 2 ^ 24 + b1.toNat * 2 ^ 16 + b2.toNat * 2 ^ 8 + b3.toNat := by omega

/-- `BE32(BEbytes(w)) = w`: neighbouring slices of a word join to the slice that spans them, and the last join spans the word. -/
@[simp] theorem be32_extractLsb' (w : Word) :
    be32 (w.extractLsb' 24 8) (w.extractLsb' 16 8) (w.extractLsb' 8 8) (w.extractLsb' 0 8) = w := by
  rw [be32, BitVec.extractLsb'_append_extractLsb'_eq_extractLsb' (show 24 = 16 + 8 from rfl),
    BitVec.extractLsb'_append_extractLsb'_eq_extractLsb' (show 16 = 8 + 8 from rfl),
    BitVec.extractLsb'_append_extractLsb'_eq_extractLsb' (show 8 = 0 + 8 from rfl), BitVec.extractLsb'_eq_self]

@[simp] theorem wordsOfBytes_beBytes_append (w : Word) (rest : List Byte) :
    wordsOfBytes (beBytes w ++ rest) = w :: wordsOfBytes rest := by
  simp only [beBytes, List.cons_append, List.nil_append, wordsOfBytes_cons, be32_extractLsb']

@[simp] theorem wordsOfBytes_beBytes (w : Word) : wordsOfBytes (beBytes w) = [w] := by
  simpa using wordsOfBytes_beBytes_append w []

/-- Settles O32: the base-256 value is `be32_toNat`, the byte orders are the definitions of `beBytes` and `leBytes`, and the
inverse law is `wordsOfBytes_beBytes`. -/
theorem wordFraming : Obligations.WordFraming :=
  ⟨be32_toNat, fun w => ⟨rfl, rfl, wordsOfBytes_beBytes w⟩⟩

end Sys2Proof.Machine
end

section
/-! The state after reset (10_state.md R34). -/

namespace Sys2Proof.Machine

@[simp] theorem Ctx.zero_buf_getElem (i : Nat) (h : i < 64) : Ctx.zero.buf[i] = 0 :=
  Vector.getElem_replicate h

/-- Settles O1: reset holds the zero context (`State.reset_ctx`), whose buffer is zero at every position
(`Ctx.zero_buf_getElem`) and whose other fields are the constants the statement names. -/
theorem resetContextIsZero : Obligations.ResetContextIsZero := by
  unfold Obligations.ResetContextIsZero
  rw [State.reset_ctx]
  exact ⟨rfl, Ctx.zero_buf_getElem, rfl, rfl, rfl, rfl, rfl⟩

end Sys2Proof.Machine
end

section
/-! The opcode map and the decode procedure (30_encoding.md R71 to R73, R77, R78): which bytes are opcodes, the command that a
packet of the right length is assembled into, and the checks of decode on a packet with a defined opcode. -/

namespace Sys2Proof

/-! ## The opcode map -/

theorem Opcode.eq_byte_of_ofByte {b : Byte} {op : Opcode} (h : Opcode.ofByte b = some op) : b = op.byte := by
  unfold Opcode.ofByte at h
  split_ifs at h with h1 h2 h3 h4 h5 h6 h7 h8 <;> cases h <;> assumption

/-- The listed rows are the eight opcodes with their formats' lengths (30_encoding.md R73). -/
theorem mem_opcodeLengths {b : Byte} {len : Nat} {exact : Bool} :
    (b, len, exact) ∈ opcodeLengths ↔ ∃ op : Opcode, b = op.byte ∧ len = op.format.required ∧ exact = op.format.exact := by
  constructor
  · intro h
    simp only [opcodeLengths, List.mem_cons, List.not_mem_nil, or_false, Prod.mk.injEq] at h
    rcases h with h | h | h | h | h | h | h | h
    · exact ⟨.shaInit, h⟩
    · exact ⟨.shaUpdate, h⟩
    · exact ⟨.shaFinal, h⟩
    · exact ⟨.crc8, h⟩
    · exact ⟨.snCheck, h⟩
    · exact ⟨.mac, h⟩
    · exact ⟨.scramble, h⟩
    · exact ⟨.derive, h⟩
  · rintro ⟨op, rfl, rfl, rfl⟩
    cases op <;> decide

/-- A byte outside the list stands for no opcode, since the byte of every opcode is listed. -/
theorem Opcode.ofByte_eq_none {b : Byte} (h : b ∉ opcodeLengths.map Prod.fst) : Opcode.ofByte b = none := by
  cases hop : Opcode.ofByte b with
  | none => rfl
  | some op =>
    have listed := mem_opcodeLengths.mpr ⟨op, Opcode.eq_byte_of_ofByte hop, rfl, rfl⟩
    exact absurd (List.mem_map_of_mem listed) h

/-! ## Operand assembly -/

/-- A field followed by the operand bytes after it is what follows the bytes before it. -/
theorem operandField_append_drop (off n : Nat) (operands : List Byte) (h : off + n ≤ operands.length) :
    (operandField off n operands).toList ++ operands.drop (off + n) = operands.drop off := by
  rw [operandField, Machine.Bytes.toList_ofList n _ (by rw [List.length_drop]; omega), ← List.drop_drop, List.take_append_drop]

/-- A field that ends where the operand bytes end is all that follows the bytes before it. -/
theorem operandField_last (off n : Nat) (operands : List Byte) (h : off + n = operands.length) :
    (operandField off n operands).toList = operands.drop off := by
  rw [← operandField_append_drop off n operands h.le, h, List.drop_length, List.append_nil]

@[simp] theorem assemble_opcode (op : Opcode) (operands : List Byte) : (assemble op operands).opcode = op := by
  cases op <;> rfl

/-- Operand assembly takes the operand bytes verbatim and drops none, if there are as many as the format requires
(30_encoding.md R72). -/
theorem assemble_operandBytes (op : Opcode) (operands : List Byte) (enough : op.format.required ≤ operands.length + 1)
    (fits : op.format.exact = true → operands.length + 1 ≤ op.format.required) :
    (assemble op operands).operandBytes = operands := by
  have payload (isExact : op.format.exact = true) : operands.length = op.format.required - 1 :=
    Nat.eq_sub_of_add_eq ((fits isExact).antisymm enough)
  cases op with
  | shaInit | shaFinal => exact (List.length_eq_zero_iff.mp (payload rfl)).symm
  | shaUpdate => rfl
  | crc8 =>
    cases operands with
    | nil => exact absurd enough (by decide)
    | cons init data => rfl
  | snCheck => exact operandField_last 0 8 operands (payload rfl).symm
  | mac =>
    have len : operands.length = 72 := payload rfl
    rw [assemble, Instr.operandBytes, operandField_last 56 16 operands len.symm]
    exact operandField_append_drop 0 56 operands (by omega)
  | scramble => exact operandField_last 0 20 operands (payload rfl).symm
  | derive =>
    have len : operands.length = 80 := payload rfl
    rw [assemble, Instr.operandBytes, operandField_last 72 8 operands len.symm, List.append_assoc,
      operandField_append_drop 8 64 operands (by omega)]
    exact operandField_append_drop 0 8 operands (by omega)

/-- A packet whose length its format allows is the packet of the command it is assembled into. -/
theorem encode_assemble (op : Opcode) (operands : List Byte) (enough : op.format.required ≤ operands.length + 1)
    (fits : op.format.exact = true → operands.length + 1 ≤ op.format.required) :
    encode (assemble op operands) = op.byte :: operands := by
  rw [encode, assemble_opcode, assemble_operandBytes op operands enough fits]

/-! ## The decode procedure -/

theorem decodeWith_reserved (limit : PayloadLimit) {b : Byte} (operands : List Byte)
    (h : b ∉ opcodeLengths.map Prod.fst) : decodeWith limit (b :: operands) = .refused .illegal := by
  simp only [decodeWith, Opcode.ofByte_eq_none h]

/-- The checks on a packet with a defined opcode, in their order (30_encoding.md R77). -/
theorem decodeWith_opcode (limit : PayloadLimit) (op : Opcode) (operands : List Byte) :
    decodeWith limit (op.byte :: operands) =
      if limit.exceeded operands.length = true then .refused .illegal
      else if operands.length + 1 < op.format.required then .refused .absent
      else if op.format.required < operands.length + 1 ∧ op.format.exact = true then .refused .illegal
      else .command (assemble op operands) := by
  simp only [decodeWith, Opcode.ofByte_byte, Bool.and_eq_true, decide_eq_true_eq, and_comm]

end Sys2Proof

namespace Sys2Proof.Machine

/-! ## A step on a waiting packet -/

theorem step_of_refused {s : State} {p : Packet} {rest : List Packet} {e : PacketError} (waits : s.input = p :: rest)
    (read : decode p = .refused e) :
    step s = .next { ctx := s.ctx, input := rest, output := s.output ++ [[statusCode e.status]] } := by
  obtain ⟨ctx, input, output⟩ := s
  obtain rfl : input = p :: rest := waits
  simp only [step, State.nextPacket, List.head?_cons, read]
  cases e <;> rfl

theorem step_of_command {s : State} {p : Packet} {rest : List Packet} {i : Instr} (waits : s.input = p :: rest)
    (read : decode p = .command i) : step s = exec i { s with input := rest } := by
  obtain ⟨ctx, input, output⟩ := s
  obtain rfl : input = p :: rest := waits
  simp only [step, State.nextPacket, List.head?_cons, read]
  rfl

/-- Settles O5: a reserved byte is refused by `decodeWith_reserved`; a listed one is an opcode of the map
(`mem_opcodeLengths`), whose checks `decodeWith_opcode` gives in their order, and what passes them all is encoded back by
`encode_assemble`; a refused packet steps by `step_of_refused`. -/
theorem decodeProcedure : Obligations.DecodeProcedure := by
  refine ⟨fun limit => ⟨rfl, fun b operands => decodeWith_reserved limit operands, ?_⟩, ?_⟩
  · intro b len exact operands listed
    obtain ⟨op, rfl, rfl, rfl⟩ := mem_opcodeLengths.mp listed
    simp only [decodeWith_opcode, ← PayloadLimit.exceeded_iff]
    split_ifs with overLimit short long
    · rfl
    · rfl
    · rfl
    · exact ⟨_, rfl, encode_assemble op operands (Nat.le_of_not_lt short)
        fun isExact => Nat.le_of_not_lt fun longer => long ⟨longer, isExact⟩⟩
  · intro s p rest e waits read
    rw [step_of_refused waits read]
    cases e <;> rfl

/-- Settles O6: the count is over the 256 bytes, and each reserved one is refused by `decodeWith_reserved`. -/
theorem reservedOpcodesRefused : Obligations.ReservedOpcodesRefused :=
  ⟨by decide +kernel, fun limit _ operands reserved => ⟨decodeWith_reserved limit operands reserved, rfl⟩⟩

end Sys2Proof.Machine
end

section
/-! One response for every packet (30_encoding.md R74): each command completes with a reply whose result has the length of the
opcode map. -/

namespace Sys2Proof.Machine

@[simp] theorem shaUpdate_result (data : List Byte) (c : Ctx) : (shaUpdate data c).2.result = [] := by
  rcases shaUpdate_cases data c with ⟨_, h⟩ | ⟨_, _, h⟩ | ⟨_, _, h⟩ <;> rw [h]

theorem shaFinal_result_length (c : Ctx) (h : (shaFinal c).2.status = .ok) : (shaFinal c).2.result.length = 20 := by
  rcases shaFinal_cases c with ⟨corrupted, eq⟩ | ⟨_, _, eq⟩ | ⟨_, _, eq⟩
  · rw [eq] at h
    exact absurd ((CtxErr.status_eq_ok c.err).mp h) corrupted
  · rw [eq, digestBytes_length]
  · rw [eq, digestBytes_length]

@[simp] theorem derive_result_length (table : ScrambleTable) (deviceMac : Bytes 8) (userData : Bytes 64) (serial : Bytes 8)
    (c : Ctx) : (derive table deviceMac userData serial c).2.result.length = 8 := by
  simp [derive]

/-- Every command completes with one reply; if its status is `OK`, its result has the length of the opcode map
(30_encoding.md R73, R74). -/
theorem exec_completes (i : Instr) (s : State) :
    ∃ c r, exec i s = .next (s.complete c r) ∧ (r.status = .ok → r.result.length = resultLength i) := by
  cases i with
  | shaInit => exact ⟨_, _, exec_shaInit s, fun _ => rfl⟩
  | shaUpdate data => exact ⟨_, _, exec_shaUpdate s data, fun _ => by rw [shaUpdate_result]; rfl⟩
  | shaFinal => exact ⟨_, _, exec_shaFinal s, shaFinal_result_length s.ctx⟩
  | crc8 init data => exact ⟨_, _, exec_crc8 s init data, fun _ => rfl⟩
  | snCheck serial => exact ⟨_, _, exec_snCheck s serial, fun _ => rfl⟩
  | mac message secret => exact ⟨_, _, exec_mac s message secret, fun _ => macBytes_length _⟩
  | scramble digest => exact ⟨_, _, exec_scramble s digest, fun _ => Vector.length_toList⟩
  | derive deviceMac userData serial =>
    exact ⟨_, _, exec_derive s deviceMac userData serial, fun _ => derive_result_length _ _ _ _ _⟩

/-- Settles O10: a refused packet answers the code of its status, which is not `OK` (`step_of_refused`); a command completes
with its reply (`exec_completes`), and the reply's packet has one of the two forms of `Reply.packet_cases`. -/
theorem oneResponsePerPacket : Obligations.OneResponsePerPacket := by
  intro s p rest waits
  cases read : decode p with
  | refused e =>
    refine ⟨_, _, step_of_refused waits read, .inr ⟨_, ?_, rfl⟩⟩
    cases e <;> decide
  | command i =>
    obtain ⟨c, r, completes, length⟩ := exec_completes i { s with input := rest }
    refine ⟨c, r.packet, (step_of_command waits read).trans completes, ?_⟩
    rcases r.packet_cases with ⟨ok, packet⟩ | ⟨failed, packet⟩
    · exact .inl ⟨i, r.result, rfl, packet, length ok⟩
    · exact .inr ⟨statusCode r.status, mt (statusCode_eq_zero r.status).mp failed, packet⟩

end Sys2Proof.Machine
end

section
/-! The message schedule and the compression (40_sha1_engine_a.md R103, R105): the words a block is framed as, and the recurrence
of the words that extend them. -/

namespace Sys2Proof.Machine

/-- Word `t` of a byte string is its bytes `4t` to `4t + 3`, framed big-endian. -/
theorem wordsOfBytes_getD (t : Nat) : ∀ l : List Byte, 4 * t + 3 < l.length →
    (wordsOfBytes l).getD t 0 =
      be32 (l.getD (4 * t) 0) (l.getD (4 * t + 1) 0) (l.getD (4 * t + 2) 0) (l.getD (4 * t + 3) 0) := by
  induction t with
  | zero =>
    intro l enough
    match l, enough with
    | _ :: _ :: _ :: _ :: _, _ => rfl
  | succ t ih =>
    intro l enough
    match l, enough with
    | _ :: _ :: _ :: _ :: rest, enough =>
      exact ih rest (by simp only [List.length_cons] at enough; omega)

@[simp] theorem extendSchedule_length (n : Nat) : ∀ w : List Word, (extendSchedule n w).length = w.length + n := by
  induction n with
  | zero => intro w; rfl
  | succ n ih =>
    intro w
    rw [extendSchedule, ih, List.length_append, List.length_singleton]
    omega

/-- Extending a schedule only appends to it. -/
theorem extendSchedule_getD_of_lt (n : Nat) : ∀ (w : List Word) {t : Nat}, t < w.length →
    (extendSchedule n w).getD t 0 = w.getD t 0 := by
  induction n with
  | zero => intro w t _; rfl
  | succ n ih =>
    intro w t old
    rw [extendSchedule, ih _ (by rw [List.length_append]; omega), List.getD_append _ _ _ _ old]

/-- `W[t]` reads only words before place `t`. -/
theorem scheduleWord_congr {w w' : List Word} {t : Nat} (pos : 0 < t) (agree : ∀ i < t, w.getD i 0 = w'.getD i 0) :
    scheduleWord w t = scheduleWord w' t := by
  unfold scheduleWord
  rw [agree (t - 3) (by omega), agree (t - 8) (by omega), agree (t - 14) (by omega), agree (t - 16) (by omega)]

/-- Every word that extends a schedule meets the recurrence in the whole schedule: it was computed from the words then present,
and no later extension changes those. -/
theorem extendSchedule_getD_of_le (n : Nat) : ∀ (w : List Word) {t : Nat}, 0 < w.length → w.length ≤ t → t < w.length + n →
    (extendSchedule n w).getD t 0 = scheduleWord (extendSchedule n w) t := by
  induction n with
  | zero => intro w t _ added inside; omega
  | succ n ih =>
    intro w t pos added inside
    have longer : (w ++ [scheduleWord w w.length]).length = w.length + 1 := by simp
    rcases Nat.eq_or_lt_of_le added with rfl | later
    · calc (extendSchedule (n + 1) w).getD w.length 0
          = (w ++ [scheduleWord w w.length]).getD w.length 0 := extendSchedule_getD_of_lt n _ (by omega)
        _ = scheduleWord w w.length := by simp
        _ = scheduleWord (extendSchedule (n + 1) w) w.length :=
            scheduleWord_congr pos fun i old => (extendSchedule_getD_of_lt (n + 1) w old).symm
    · exact ih _ (by omega) (by omega) (by omega)

/-- Settles O28: the first 16 words stay (`extendSchedule_getD_of_lt`) and are the framed bytes (`wordsOfBytes_getD`), the 64 that
follow meet the recurrence (`extendSchedule_getD_of_le`), and the worked example is evaluated. -/
theorem scheduleExpansion : Obligations.ScheduleExpansion := by
  refine ⟨fun block => ?_, by decide +kernel⟩
  have bytes : block.toList.length = 64 := Vector.length_toList
  have words : (wordsOfBytes block.toList).length = 16 := wordsOfBytes_length 16 _ bytes
  refine ⟨?_, fun t first => ?_, fun t added inside => ?_⟩
  · rw [schedule, extendSchedule_length, words]
  · rw [schedule, extendSchedule_getD_of_lt 64 _ (by omega), wordsOfBytes_getD t _ (by omega)]
  · exact extendSchedule_getD_of_le 64 _ (by omega) (by omega) (by omega)

/-- Settles O30: the sum is the definition of `compress` through `addWords`; the worked example is evaluated. -/
theorem compressAddsBack : Obligations.CompressAddsBack :=
  ⟨fun s block => by simp only [compress, addWords], by decide +kernel⟩

end Sys2Proof.Machine
end

section
/-! The emission of the digest (40_sha1_engine_a.md R112). -/

namespace Sys2Proof.Machine

theorem digestBytes_eq_flatMap (h : HashWords) : digestBytes h = [h.a, h.b, h.c, h.d, h.e].flatMap beBytes := by
  simp [digestBytes]

/-- Words emitted big-endian, four bytes each: byte `4i + j` is byte `j` of word `i`. -/
theorem flatMap_beBytes_getD {j : Nat} (inWord : j < 4) : ∀ (ws : List Word) (i : Nat), i < ws.length →
    (ws.flatMap beBytes).getD (4 * i + j) 0 = (beBytes (ws.getD i 0)).getD j 0
  | w :: ws, 0, _ => by
    rw [List.flatMap_cons, Nat.mul_zero, Nat.zero_add, List.getD_append _ _ _ _ inWord, List.getD_cons_zero]
  | w :: ws, i + 1, inside => by
    have past : (beBytes w).length ≤ 4 * (i + 1) + j := by rw [beBytes_length]; omega
    rw [List.flatMap_cons, List.getD_append_right _ _ _ _ past, beBytes_length, List.getD_cons_succ,
      show 4 * (i + 1) + j - 4 = 4 * i + j by omega]
    exact flatMap_beBytes_getD inWord ws i (Nat.lt_of_succ_lt_succ inside)

/-- Settles O33: the digest is the five words' bytes in a row (`digestBytes_eq_flatMap`), indexed by `flatMap_beBytes_getD`. -/
theorem digestEmission : Obligations.DigestEmission := by
  intro h
  refine ⟨digestBytes_length h, fun i j word byte => ?_⟩
  rw [digestBytes_eq_flatMap]
  exact flatMap_beBytes_getD (Nat.lt_succ_of_le byte) _ i (Nat.lt_succ_of_le word)

end Sys2Proof.Machine
end

section
/-! `SHA_INIT` and `SHA_UPDATE` in every state (40_sha1_engine_a.md R107, R109): the bytes that the loop accepts. -/

namespace Sys2Proof.Machine

theorem State.complete_status (s : State) (c : Ctx) (st : Status) :
    s.complete c { status := st, result := [] } = { s with ctx := c, output := s.output ++ [[statusCode st]] } := by
  rw [State.complete, Reply.packet_nil]

/-- Settles O14: the reply is `OK` alone, and the context is `Ctx.fresh` with its constants written out. -/
theorem shaInitResult : Obligations.ShaInitResult := by
  intro s
  rw [exec_shaInit, State.complete_status, statusCode_ok]
  rfl

/-- The context after the first `j` bytes of the data, each accepted whatever the ones before it did. -/
def acceptPrefix (data : List Byte) (c : Ctx) (j : Nat) : Ctx :=
  (data.take j).foldl (fun c v => acceptByte v c) c

@[simp] theorem acceptPrefix_zero (data : List Byte) (c : Ctx) : acceptPrefix data c 0 = c := rfl

@[simp] theorem acceptPrefix_cons_succ (v : Byte) (vs : List Byte) (c : Ctx) (j : Nat) :
    acceptPrefix (v :: vs) c (j + 1) = acceptPrefix vs (acceptByte v c) j := rfl

theorem acceptBytes_cons_of_corrupts {v : Byte} {c : Ctx} (vs : List Byte) (corrupts : (acceptByte v c).err ≠ .clear) :
    acceptBytes (v :: vs) c = acceptByte v c :=
  if_pos ((Ctx.corrupted_eq_true _).mpr corrupts)

theorem acceptBytes_cons_of_clear {v : Byte} {c : Ctx} (vs : List Byte) (clear : (acceptByte v c).err = .clear) :
    acceptBytes (v :: vs) c = acceptBytes vs (acceptByte v c) :=
  if_neg (mt (Ctx.corrupted_eq_true _).mp (not_not_intro clear))

/-- The loop of `SHA_UPDATE` accepts the bytes up to and including the first one that corrupts the context. -/
theorem acceptBytes_eq_acceptPrefix (data : List Byte) : ∀ c : Ctx, c.err = .clear →
    ∃ k, k ≤ data.length ∧ (∀ j, j < k → (acceptPrefix data c j).err = .clear) ∧
      (k = data.length ∨ (acceptPrefix data c k).err ≠ .clear) ∧ acceptBytes data c = acceptPrefix data c k := by
  induction data with
  | nil => exact fun c _ => ⟨0, Nat.le_refl 0, fun j none => absurd none (Nat.not_lt_zero j), .inl rfl, rfl⟩
  | cons v vs ih =>
    intro c clear
    by_cases clear' : (acceptByte v c).err = .clear
    · obtain ⟨k, inside, before, last, accepted⟩ := ih (acceptByte v c) clear'
      refine ⟨k + 1, Nat.succ_le_succ inside, ?_, last.imp_left (congrArg Nat.succ), ?_⟩
      · rintro (_ | j) earlier
        · exact clear
        · exact before j (Nat.lt_of_succ_lt_succ earlier)
      · rw [acceptBytes_cons_of_clear vs clear', accepted, acceptPrefix_cons_succ]
    · refine ⟨1, Nat.succ_le_succ (Nat.zero_le _), ?_, .inr clear', acceptBytes_cons_of_corrupts vs clear'⟩
      intro j first
      rwa [Nat.lt_one_iff.mp first, acceptPrefix_zero]

/-- Settles O16: the three branches of `shaUpdate_cases`, each excluded by the other clauses' hypotheses; the open one accepts the
bytes that `acceptBytes_eq_acceptPrefix` gives. -/
theorem shaUpdateResult : Obligations.ShaUpdateResult := by
  intro data s
  rw [exec_shaUpdate]
  rcases shaUpdate_cases data s.ctx with ⟨final, eq⟩ | ⟨opened, corrupted, eq⟩ | ⟨opened, clear, eq⟩ <;>
    rw [eq, State.complete_status]
  · refine ⟨fun _ => rfl, fun opened => ?_, fun opened => ?_⟩ <;> simp [final] at opened
  · exact ⟨fun final => by simp [opened] at final, fun _ _ => rfl, fun _ clear => absurd clear corrupted⟩
  · refine ⟨fun final => by simp [opened] at final, fun _ corrupted => absurd clear corrupted, fun _ _ => ?_⟩
    obtain ⟨k, inside, before, last, accepted⟩ := acceptBytes_eq_acceptPrefix data s.ctx clear
    exact ⟨k, inside, before, last, by rw [accepted]; rfl⟩

end Sys2Proof.Machine
end

section
/-! `SHA_FINAL` in every state (40_sha1_engine_a.md R110, R111): the padded message as one block or two. -/

namespace Sys2Proof.Machine

theorem compressBlocks_block_append (n : Nat) (h : HashWords) {block : List Byte} (rest : List Byte)
    (full : block.length = 64) : compressBlocks (n + 1) h (block ++ rest) = compressBlocks n (compress h block) rest := by
  rw [compressBlocks, ← full, List.take_left, List.drop_left]

theorem compressBlocks_one (h : HashWords) {block : List Byte} (full : block.length = 64) :
    compressBlocks 1 h block = compress h block := by
  rw [← List.append_nil block, compressBlocks_block_append 0 h [] full, List.append_nil, compressBlocks]

/-- The byte `0x80` and zeros up to a limit, after the buffered bytes. -/
theorem Ctx.storeByte_zeroFillTo_filled (c : Ctx) (v : Byte) {limit : Nat} (room : c.idx < limit) (h64 : limit ≤ 64) :
    ((c.storeByte v).zeroFillTo limit).buf.toList.take limit =
      c.buf.toList.take c.idx ++ [v] ++ List.replicate (limit - (c.idx + 1)) 0 := by
  rw [Ctx.zeroFillTo_filled limit (c.storeByte v) room h64, Ctx.storeByte_idx, Ctx.storeByte_buf,
    take_setIfInBounds c.buf c.idx v (by omega)]

/-- The last block of the padding: what the filled-up buffer holds, with the length field after it. -/
theorem Ctx.lastBlock_h (c : Ctx) :
    (c.zeroFillTo 56).storeLengthField.processBlock.h =
      compress c.h ((c.zeroFillTo 56).buf.toList.take 56 ++ beBytes c.lenHi ++ beBytes c.lenLo) := by
  rw [Ctx.processBlock_h, Ctx.storeLengthField_toList, Ctx.storeLengthField_h, Ctx.zeroFillTo_h, Ctx.zeroFillTo_lenHi,
    Ctx.zeroFillTo_lenLo]

/-- The message's last bytes as `SHA_FINAL` pads them (40_sha1_engine_a.md R110): the buffered bytes, the byte `0x80`, so many
zeros, and the length field. -/
def Ctx.paddedTail (c : Ctx) (zeros : Nat) : List Byte :=
  c.buf.toList.take c.idx ++ [0x80] ++ List.replicate zeros 0 ++ beBytes c.lenHi ++ beBytes c.lenLo

theorem Ctx.paddedTail_length (c : Ctx) (zeros : Nat) (room : c.idx ≤ 63) :
    (c.paddedTail zeros).length = c.idx + 1 + zeros + 8 := by
  simp only [paddedTail, List.length_append, List.length_take, Vector.length_toList, List.length_singleton,
    List.length_replicate, beBytes_length]
  omega

/-- A fill index up to 55 leaves room for the length field: the padding is one block. -/
theorem Ctx.pad_h_of_le (c : Ctx) (room : c.idx ≤ 55) : c.pad.h = compressBlocks 1 c.h (c.paddedTail (55 - c.idx)) := by
  rw [compressBlocks_one c.h (by rw [c.paddedTail_length _ (by omega)]; omega)]
  simp only [Ctx.pad, if_neg (Nat.not_lt_of_le room)]
  rw [Ctx.lastBlock_h, Ctx.storeByte_zeroFillTo_filled c 0x80 (by omega) (by omega),
    show 56 - (c.idx + 1) = 55 - c.idx by omega]
  rfl

/-- A fill index above 55 does not: the padding is the block that the buffer is filled up to, and one of zeros and the length
field. -/
theorem Ctx.pad_h_of_lt (c : Ctx) (late : 55 < c.idx) (room : c.idx ≤ 63) :
    c.pad.h = compressBlocks 2 c.h (c.paddedTail ((63 - c.idx) + 56)) := by
  have firstBlock : ((c.storeByte 0x80).zeroFillTo 64).buf.toList =
      c.buf.toList.take c.idx ++ [0x80] ++ List.replicate (63 - c.idx) 0 := by
    have filled := Ctx.storeByte_zeroFillTo_filled c 0x80 (limit := 64) (by omega) (Nat.le_refl 64)
    rwa [List.take_of_length_le (by simp), show 64 - (c.idx + 1) = 63 - c.idx by omega] at filled
  have twoBlocks : c.paddedTail ((63 - c.idx) + 56) = ((c.storeByte 0x80).zeroFillTo 64).buf.toList ++
      (List.replicate 56 0 ++ beBytes c.lenHi ++ beBytes c.lenLo) := by
    rw [firstBlock, Ctx.paddedTail, List.replicate_add]
    simp only [List.append_assoc]
  rw [twoBlocks, compressBlocks_block_append 1 c.h _ Vector.length_toList, compressBlocks_one _ (by simp)]
  simp only [Ctx.pad, if_pos late]
  rw [Ctx.lastBlock_h, Ctx.zeroFillTo_filled 56 _ (Nat.zero_le 56) (by omega), Ctx.processBlock_idx, List.take_zero,
    List.nil_append, Ctx.processBlock_h, Ctx.processBlock_lenHi, Ctx.processBlock_lenLo]
  simp only [Ctx.zeroFillTo_h, Ctx.zeroFillTo_lenHi, Ctx.zeroFillTo_lenLo, Ctx.storeByte_h, Ctx.storeByte_lenHi,
    Ctx.storeByte_lenLo, Nat.sub_zero]

/-- What the first successful `SHA_FINAL` leaves: everything but the digest words is cleared (40_sha1_engine_a.md R111). -/
theorem Ctx.close_eq (c : Ctx) (clear : c.err = .clear) :
    c.close = { h := c.pad.h, buf := Vector.replicate 64 0, idx := 0, lenHi := 0, lenLo := 0, finalized := true, err := .clear } := by
  have padIdx : c.pad.idx = 0 := by simp only [Ctx.pad, Ctx.processBlock_idx]
  rw [Ctx.close, padIdx, Ctx.pad_err, clear]

/-- Settles O20: the three branches of `shaFinal_cases`, each excluded by the other clauses' hypotheses; the open one leaves the
context of `Ctx.close_eq`, whose digest words are those of one block (`Ctx.pad_h_of_le`) or two (`Ctx.pad_h_of_lt`). -/
theorem shaFinalResult : Obligations.ShaFinalResult := by
  intro s room
  rw [exec_shaFinal]
  rcases shaFinal_cases s.ctx with ⟨corrupted, eq⟩ | ⟨clear, final, eq⟩ | ⟨clear, opened, eq⟩ <;> rw [eq]
  · exact ⟨fun _ => by rw [State.complete_status], fun clear => absurd clear corrupted, fun clear => absurd clear corrupted⟩
  · refine ⟨fun corrupted => absurd clear corrupted, fun _ _ => ?_, fun _ opened => by simp [final] at opened⟩
    rw [State.complete, Reply.packet_ok]
  · refine ⟨fun corrupted => absurd clear corrupted, fun _ final => by simp [opened] at final, fun _ _ => ?_⟩
    rw [State.complete, Reply.packet_ok, Ctx.close_eq s.ctx clear]
    by_cases late : 55 < s.ctx.idx
    · simp only [if_pos late]
      rw [s.ctx.pad_h_of_lt late room]
      rfl
    · simp only [if_neg late]
      rw [s.ctx.pad_h_of_le (Nat.le_of_not_lt late)]
      rfl

end Sys2Proof.Machine
end

section
/-! `CRC8` and `SN_CHECK` in every state (41_crc8.md R144, R145, R147): both answer `OK` and leave the state as it is but for the
response. -/

namespace Sys2Proof.Machine

/-- A command that keeps the context and answers `OK` only adds its response. -/
theorem State.complete_ctx_ok (s : State) (res : List Byte) :
    s.complete s.ctx { status := .ok, result := res } = { s with output := s.output ++ [0x00 :: res] } := by
  rw [State.complete, Reply.packet_ok]

@[simp] theorem crc8_nil (order : Crc8Order) (init : Byte) : crc8 order init [] = init := rfl

@[simp] theorem crc8_cons (order : Crc8Order) (init v : Byte) (vs : List Byte) :
    crc8 order init (v :: vs) = crc8 order (crcTable order (init ^^^ v)) vs := rfl

/-- The function passes its value from byte to byte and nothing else, so it may stop after `a` and go on from there. -/
theorem crc8_append (order : Crc8Order) (a b : List Byte) : ∀ init : Byte,
    crc8 order init (a ++ b) = crc8 order (crc8 order init a) b := by
  induction a with
  | nil => exact fun init => rfl
  | cons v vs ih => exact fun init => ih (crcTable order (init ^^^ v))

theorem crc8_concat (order : Crc8Order) (init : Byte) (data : List Byte) (v : Byte) :
    crc8 order init (data ++ [v]) = crcTable order (crc8 order init data ^^^ v) := by
  rw [crc8_append, crc8_cons, crc8_nil]

/-- Settles O35: the function's recursion read from its last byte (`crc8_concat`), and the command's `OK` reply on an unchanged
context. -/
theorem crc8Result : Obligations.Crc8Result := by
  refine ⟨fun order init => ⟨crc8_nil order init, crc8_concat order init⟩, fun init data s => ?_⟩
  rw [exec_crc8, crc8Reply, State.complete_ctx_ok]

/-- The gate's two conditions (41_crc8.md R147). -/
theorem serialAccepted_iff (order : Crc8Order) (serial : Bytes 8) :
    serialAccepted order serial = true ↔ serial[0] = 0x3C ∧ crc8 order 0x00 serial.toList = 0x00 := by
  rw [serialAccepted, Bool.and_eq_true, decide_eq_true_iff, decide_eq_true_iff, Config.snTag]

/-- Settles O39: a rejection is an `OK` reply too, so both outcomes have one shape, with the byte decided by `serialAccepted_iff`. -/
theorem snCheckResult : Obligations.SnCheckResult := by
  intro serial s
  rw [exec_snCheck, snCheckReply, State.complete_ctx_ok]
  simp only [serialAccepted_iff]

end Sys2Proof.Machine
end

section
/-! Hash Engine B: its block, its result in every state, and its emission (42_sha1_engine_b.md R160 to R165). -/

namespace Sys2Proof.Machine

section Block

variable (message : Bytes 56) (secret : Bytes 16)

@[simp] theorem macMessageWords_length : (macMessageWords message).length = 14 :=
  wordsOfBytes_length 14 _ Vector.length_toList

/-- Words 0 to 13 before the secret enters: the message's own (42_sha1_engine_b.md R160). -/
theorem macPaddedWords_getD_of_le {i : Nat} (inMessage : i ≤ 13) :
    (macPaddedWords message).getD i 0 =
      be32 (message.toList.getD (4 * i) 0) (message.toList.getD (4 * i + 1) 0) (message.toList.getD (4 * i + 2) 0)
        (message.toList.getD (4 * i + 3) 0) := by
  have inWords : i < (macMessageWords message).length := by rw [macMessageWords_length]; omega
  have inBytes : 4 * i + 3 < message.toList.length := by rw [Vector.length_toList]; omega
  rw [macPaddedWords, List.getD_append _ _ _ _ inWords, macMessageWords, wordsOfBytes_getD i _ inBytes]

/-- Words 14 and 15 before the secret enters: the forced length (42_sha1_engine_b.md R161). -/
theorem macPaddedWords_getD_of_lt {i : Nat} (past : 13 < i) :
    (macPaddedWords message).getD i 0 = [0, Config.macLenField].getD (i - 14) 0 := by
  have pastWords : (macMessageWords message).length ≤ i := by rw [macMessageWords_length]; omega
  rw [macPaddedWords, List.getD_append_right _ _ _ _ pastWords, macMessageWords_length]

@[simp] theorem macPaddedWords_length : (macPaddedWords message).length = 16 := by
  simp [macPaddedWords]

@[simp] theorem macBlockWords_length : (macBlockWords message secret).length = 16 := by
  simp [macBlockWords]

theorem macBlockWords_getD_zero :
    (macBlockWords message secret).getD 0 0 = be32 secret[0] secret[1] secret[2] secret[3] := by
  simp [macBlockWords, Config.macSecretWord0, Config.macSecretWord1]

theorem macBlockWords_getD_twelve :
    (macBlockWords message secret).getD 12 0 = be32 secret[4] secret[5] secret[6] secret[7] := by
  simp [macBlockWords, Config.macSecretWord1]

/-- The secret enters words 0 and 12 only (42_sha1_engine_b.md R162). -/
theorem macBlockWords_getD_of_ne {i : Nat} (ne0 : i ≠ 0) (ne12 : i ≠ 12) :
    (macBlockWords message secret).getD i 0 = (macPaddedWords message).getD i 0 := by
  simp only [macBlockWords, Config.macSecretWord0, Config.macSecretWord1, List.getD_eq_getElem?_getD,
    List.getElem?_set_ne ne0.symm, List.getElem?_set_ne ne12.symm]

theorem macBlockWords_getD_of_lt {i : Nat} (past : 13 < i) :
    (macBlockWords message secret).getD i 0 = [0, Config.macLenField].getD (i - 14) 0 := by
  rw [macBlockWords_getD_of_ne message secret (by omega) (by omega), macPaddedWords_getD_of_lt message past]

end Block

/-- Settles O41: words 0 and 12 are the secret's, and every other word is the padded message's (`macBlockWords_getD_of_ne`), a
message word up to 13 and the length after it. -/
theorem macBlock : Obligations.MacBlock := by
  intro message secret
  refine ⟨macBlockWords_length message secret, fun i inMessage ne0 ne12 => ?_, macBlockWords_getD_zero message secret,
    macBlockWords_getD_twelve message secret, macBlockWords_getD_of_lt message secret (i := 14) (by decide),
    macBlockWords_getD_of_lt message secret (i := 15) (by decide)⟩
  rw [macBlockWords_getD_of_ne message secret ne0 ne12, macPaddedWords_getD_of_le message inMessage]

/-- Settles O42: the reply is `OK` on an unchanged context (`State.complete_ctx_ok`), and for either value of the add-back
`macWords` gives the words that the statement names. -/
theorem macResult : Obligations.MacResult := by
  intro message secret s
  rw [exec_mac, macReply, State.complete_ctx_ok]
  cases Config.macFeedforward with
  | true => rfl
  | false => rfl

/-- Engine B emits the words in the opposite order, each with its bytes in the opposite order: the whole emission is Engine A's
reversed. -/
theorem macBytes_eq_reverse_digestBytes (r : HashWords) : macBytes r = (digestBytes r).reverse := by
  simp only [macBytes, digestBytes, leBytes_eq_reverse, List.reverse_append, List.append_assoc]

/-- Settles O43: the emission is the definition of `macBytes`; byte `k` of a reversed string of 20 bytes is byte `19 - k`. -/
theorem macEmissionReversesDigest : Obligations.MacEmissionReversesDigest := by
  intro r
  refine ⟨rfl, fun k inside => ?_⟩
  have inDigest : k < (digestBytes r).length := by rw [digestBytes_length]; omega
  rw [macBytes_eq_reverse_digestBytes, List.getD_reverse k inDigest, digestBytes_length]

end Sys2Proof.Machine
end

section
/-! `SCRAMBLE` and `DERIVE` in every state (43_derive_scramble.md R184, R185). `DERIVE` reads a digest from its inner `SHA_FINAL`
because its inner `SHA_UPDATE` cannot fail: it counts 80 bytes from zero, and only an overflow of the counter corrupts a clear
context. -/

namespace Sys2Proof.Machine

/-- Settles O46: the reply is `OK` on an unchanged context (`State.complete_ctx_ok`), and its result is `scramblePairs` of the
table in use. -/
theorem scrambleResult : Obligations.ScrambleResult := by
  intro digest s
  rw [exec_scramble, scrambleReply, State.complete_ctx_ok]
  rfl

/-! ## Bytes that fit the counter -/

/-- A byte whose 8 bits still fit the counter corrupts nothing: only at `2^64 - 8` do both halves wrap. -/
theorem acceptByte_err_of_fits (v : Byte) {c : Ctx} (clear : c.err = .clear) (fits : c.bitLength + 8 < 2 ^ 64) :
    (acceptByte v c).err = .clear := by
  have noOverflow : ¬(c.lenLo + 8 = 0 ∧ c.lenHi + 1 = 0) := by
    rintro ⟨loWraps, hiWraps⟩
    unfold Ctx.bitLength at fits
    bv_omega
  rw [acceptByte_err, if_neg noOverflow, clear]

/-- A byte whose 8 bits still fit the counter advances it by 8, without the reduction modulo 2^64. -/
theorem acceptByte_bitLength_of_fits (v : Byte) {c : Ctx} (whole : c.bitLength % 8 = 0) (fits : c.bitLength + 8 < 2 ^ 64) :
    (acceptByte v c).bitLength = c.bitLength + 8 := by
  have wholeLo : c.lenLo.toNat % 8 = 0 := by
    unfold Ctx.bitLength at whole
    omega
  rw [acceptByte_bitLength v c wholeLo, Nat.mod_eq_of_lt fits]

/-- Data whose bits fit the counter leave a clear context clear. -/
theorem acceptBytes_err_of_fits (data : List Byte) : ∀ {c : Ctx}, c.err = .clear → c.bitLength % 8 = 0 →
    c.bitLength + 8 * data.length < 2 ^ 64 → (acceptBytes data c).err = .clear := by
  induction data with
  | nil => exact fun clear _ _ => clear
  | cons v vs ih =>
    intro c clear whole fits
    rw [List.length_cons] at fits
    have clear' := acceptByte_err_of_fits v clear (by omega)
    have counted := acceptByte_bitLength_of_fits v whole (by omega)
    rw [acceptBytes_cons_of_clear vs clear']
    exact ih clear' (by omega) (by omega)

/-! ## The commands that DERIVE performs -/

/-- `SHA_UPDATE` on an open, clear context answers `OK` and leaves it clear, if the data's bits fit the counter. -/
theorem shaUpdate_of_fits (data : List Byte) {c : Ctx} (opened : c.finalized = false) (clear : c.err = .clear)
    (whole : c.bitLength % 8 = 0) (fits : c.bitLength + 8 * data.length < 2 ^ 64) :
    ∃ c', shaUpdate data c = (c', { status := .ok, result := [] }) ∧ c'.err = .clear := by
  have stays := acceptBytes_err_of_fits data clear whole fits
  rcases shaUpdate_cases data c with ⟨final, _⟩ | ⟨_, corrupted, _⟩ | ⟨_, _, eq⟩
  · simp [opened] at final
  · exact absurd clear corrupted
  · exact ⟨acceptBytes data c, by rw [eq, stays, CtxErr.status], stays⟩

/-- `SHA_FINAL` on a clear context, open or finalized, answers the digest of the context it leaves. -/
theorem shaFinal_of_clear {c : Ctx} (clear : c.err = .clear) :
    ∃ c', shaFinal c = (c', { status := .ok, result := digestBytes c'.h }) := by
  rcases shaFinal_cases c with ⟨corrupted, _⟩ | ⟨_, _, eq⟩ | ⟨_, _, eq⟩
  · exact absurd clear corrupted
  · exact ⟨c, eq⟩
  · exact ⟨c.close, eq⟩

theorem exec_shaUpdate_of_eq {data : List Byte} {s : State} {c : Ctx} {r : Reply} (update : shaUpdate data s.ctx = (c, r)) :
    exec (.shaUpdate data) s = .next (s.complete c r) := by
  rw [exec_shaUpdate, update]

theorem exec_shaFinal_of_eq {s : State} {c : Ctx} {r : Reply} (final : shaFinal s.ctx = (c, r)) :
    exec .shaFinal s = .next (s.complete c r) := by
  rw [exec_shaFinal, final]

@[simp] theorem Ctx.fresh_bitLength : Ctx.fresh.bitLength = 0 := rfl

section Derive

variable (deviceMac : Bytes 8) (userData : Bytes 64) (serial : Bytes 8)

@[simp] theorem deriveMessage_length : (deriveMessage deviceMac userData serial).length = 80 := by
  simp [deriveMessage]

/-- The 80 bytes of `DERIVE` fit the counter of the context that `SHA_INIT` leaves. -/
theorem shaUpdate_deriveMessage :
    ∃ c, shaUpdate (deriveMessage deviceMac userData serial) Ctx.fresh = (c, { status := .ok, result := [] }) ∧
      c.err = .clear :=
  shaUpdate_of_fits _ Ctx.fresh_finalized Ctx.fresh_err (by rw [Ctx.fresh_bitLength])
    (by rw [Ctx.fresh_bitLength, deriveMessage_length]; decide)

/-- The inner commands start from the fresh context, whatever the context was. -/
theorem deriveHash_eq_shaFinal (c : Ctx) :
    deriveHash deviceMac userData serial c =
      shaFinal (shaUpdate (deriveMessage deviceMac userData serial) Ctx.fresh).1 := by
  simp only [deriveHash, shaInit]

/-- `DERIVE` leaves the context that the inner commands leave, and answers the scrambled result of the last. -/
theorem derive_of_deriveHash (table : ScrambleTable) {c c' : Ctx} {r : Reply}
    (hashed : deriveHash deviceMac userData serial c = (c', r)) :
    derive table deviceMac userData serial c =
      (c', { status := .ok, result := (scrambleDigest table (Bytes.ofList 20 r.result)).toList.take 8 }) := by
  simp only [derive, hashed]

end Derive

/-- Settles O49: the states are those of the three commands' equations; the update answers `OK` on a clear context
(`shaUpdate_deriveMessage`), so the final command answers a digest (`shaFinal_of_clear`), which `DERIVE` scrambles
(`derive_of_deriveHash`). -/
theorem deriveResult : Obligations.DeriveResult := by
  intro deviceMac userData serial s
  obtain ⟨updated, update, clear⟩ := shaUpdate_deriveMessage deviceMac userData serial
  obtain ⟨closed, final⟩ := shaFinal_of_clear clear
  have hashed : deriveHash deviceMac userData serial s.ctx = (closed, { status := .ok, result := digestBytes closed.h }) := by
    rw [deriveHash_eq_shaFinal, update, final]
  rw [deriveMessage] at update
  refine ⟨_, _, _, digestBytes closed.h, exec_shaInit s, exec_shaUpdate_of_eq update, ?_, exec_shaFinal_of_eq final, ?_,
    digestBytes_length closed.h, ?_⟩
  · rw [State.complete_output, Reply.packet_ok]
  · rw [State.complete_output, Reply.packet_ok]
  · rw [exec_derive, derive_of_deriveHash _ _ _ _ hashed, State.complete, Reply.packet_ok, State.complete_ctx]

end Sys2Proof.Machine
end

section
/-! Decode and encode as inverses (30_encoding.md R70 to R73, R77): the fields of a command's operand bytes, and the checks that
its packet passes. -/

namespace Sys2Proof

/-- A field is read back from between the operand bytes before it and those after it. -/
theorem operandField_append (n : Nat) (before : List Byte) (field : Bytes n) (rest : List Byte) :
    operandField before.length n (before ++ (field.toList ++ rest)) = field := by
  apply Vector.toList_inj.mp
  rw [operandField, List.drop_left, Machine.Bytes.toList_ofList n _ (by simp)]
  exact List.take_left' Vector.length_toList

@[simp] theorem Instr.operandBytes_length (i : Instr) : i.operandBytes.length = i.payloadLength := by
  cases i with
  | shaInit | shaUpdate | shaFinal | snCheck | scramble => simp [operandBytes, payloadLength]
  | crc8 init data => simp [operandBytes, payloadLength, Nat.add_comm]
  | mac | derive => simp [operandBytes, payloadLength]

/-- A command's packet has the length its format requires: exactly, or at least (30_encoding.md R71). -/
theorem Instr.payload_meets_format (i : Instr) : i.opcode.format.required ≤ i.payloadLength + 1 ∧
    (i.opcode.format.exact = true → i.payloadLength + 1 ≤ i.opcode.format.required) := by
  cases i with
  | shaUpdate data => exact ⟨Nat.le_add_left 1 _, nofun⟩
  | crc8 init data => exact ⟨show 2 ≤ 1 + data.length + 1 by omega, nofun⟩
  | shaInit | shaFinal | snCheck | mac | scramble | derive => exact ⟨Nat.le_refl _, fun _ => Nat.le_refl _⟩

/-- Operand assembly undoes the encoder: each field stands between the bytes before it and the bytes after it
(`operandField_append`). -/
theorem assemble_operandBytes_self (i : Instr) : assemble i.opcode i.operandBytes = i := by
  cases i with
  | shaInit | shaUpdate | shaFinal | crc8 => rfl
  | snCheck serial => exact congrArg Instr.snCheck (Machine.Bytes.ofList_toList 8 serial)
  | mac message secret =>
    have first := operandField_append 56 [] message secret.toList
    have second := operandField_append 16 message.toList secret []
    rw [Vector.length_toList, List.append_nil] at second
    simp only [assemble, Instr.opcode, Instr.operandBytes, second]
    exact congrArg (Instr.mac · secret) first
  | scramble digest => exact congrArg Instr.scramble (Machine.Bytes.ofList_toList 20 digest)
  | derive deviceMac userData serial =>
    have first := operandField_append 8 [] deviceMac (userData.toList ++ serial.toList)
    have second := operandField_append 64 deviceMac.toList userData serial.toList
    have third := operandField_append 8 (deviceMac.toList ++ userData.toList) serial []
    rw [Vector.length_toList] at second
    rw [List.length_append, Vector.length_toList, Vector.length_toList, List.append_nil] at third
    simp only [assemble, Instr.opcode, Instr.operandBytes, third]
    simp only [List.append_assoc, second]
    exact congrArg (Instr.derive · userData serial) first

/-- The packet of a command that respects the limit passes every check of decode. -/
theorem decodeWith_encode (limit : PayloadLimit) (i : Instr) (wf : i.wellFormed limit = true) :
    decodeWith limit (encode i) = .command i := by
  obtain ⟨enough, fits⟩ := i.payload_meets_format
  have within : limit.exceeded i.payloadLength = false := (Instr.wellFormed_iff limit i).mp wf
  rw [encode, decodeWith_opcode, Instr.operandBytes_length, assemble_operandBytes_self, within, if_neg Bool.false_ne_true,
    if_neg (Nat.not_lt_of_le enough), if_neg fun long => Nat.not_lt_of_le (fits long.2) long.1]

/-- A packet that decodes to a command begins with an opcode byte and passed every check (30_encoding.md R77). -/
theorem decodeWith_eq_command {limit : PayloadLimit} {p : Packet} {i : Instr} (read : decodeWith limit p = .command i) :
    ∃ op operands, p = op.byte :: operands ∧ i = assemble op operands ∧ limit.exceeded operands.length = false ∧
      op.format.required ≤ operands.length + 1 ∧ (op.format.exact = true → operands.length + 1 ≤ op.format.required) := by
  match p, read with
  | b :: operands, read =>
    cases listed : Opcode.ofByte b with
    | none => simp [decodeWith, listed] at read
    | some op =>
      obtain rfl := Opcode.eq_byte_of_ofByte listed
      rw [decodeWith_opcode] at read
      split_ifs at read with overLimit short long
      simp only [Decoded.command.injEq] at read
      exact ⟨op, operands, rfl, read.symm, Bool.eq_false_of_not_eq_true overLimit, Nat.le_of_not_lt short,
        fun isExact => Nat.le_of_not_lt fun longer => long ⟨longer, isExact⟩⟩

/-- Settles O3: `decodeWith_encode`. -/
theorem decodeOfEncode : Obligations.DecodeOfEncode :=
  decodeWith_encode

/-- Settles O4: the checks that the packet passed (`decodeWith_eq_command`) are those under which its operand bytes are all
assembled into the command (`encode_assemble`), so that the command's payload is the packet's. -/
theorem encodeOfDecode : Obligations.EncodeOfDecode := by
  intro limit p i read
  obtain ⟨op, operands, rfl, rfl, within, enough, fits⟩ := decodeWith_eq_command read
  refine ⟨encode_assemble op operands enough fits, ?_⟩
  rwa [Instr.wellFormed_iff, ← Instr.operandBytes_length, assemble_operandBytes op operands enough fits]

end Sys2Proof

namespace Sys2Proof.Machine

/-- Settles O7: each packet has at most 80 operand bytes, so decode evaluates without asking for the payload limit. -/
theorem writtenPacketsDecode : Obligations.WrittenPacketsDecode := by
  refine ⟨?_, ?_, ?_, ?_, ?_, ?_, ?_⟩ <;> decide

/-- Settles O8: the command respects the limit by `encodeOfDecode`, and the step is `step_of_command`. -/
theorem stepRunsDecodedCommand : Obligations.StepRunsDecodedCommand := by
  intro s p rest i waits read
  exact ⟨(encodeOfDecode _ p i read).2, step_of_command waits read⟩

/-- With no packet waiting the block is idle (log 6). -/
theorem step_of_idle {s : State} (idle : s.input = []) : step s = .next s := by
  simp only [step, State.nextPacket, idle, List.head?_nil]

/-- Settles O9. -/
theorem stepIdlesWithoutPacket : Obligations.StepIdlesWithoutPacket :=
  fun _ idle => step_of_idle idle

end Sys2Proof.Machine
end

section
/-! Commands as functions of the context (30_encoding.md R74; 10_state.md R36): what a command does depends on the context alone,
it leaves the host's stream alone, and it appends one response. Runs of commands and of steps go through this. -/

namespace Sys2Proof.Machine

/-- The context a command leaves and its reply, as a function of the context it finds. -/
def commandEffect : Instr → Ctx → Ctx × Reply
  | .shaInit, _ => (Ctx.fresh, { status := .ok, result := [] })
  | .shaUpdate data, c => shaUpdate data c
  | .shaFinal, c => shaFinal c
  | .crc8 init data, c => (c, crc8Reply Config.crc8Order init data)
  | .snCheck serial, c => (c, snCheckReply Config.crc8Order serial)
  | .mac message secret, c => (c, macReply Config.macFeedforward message secret)
  | .scramble digest, c => (c, scrambleReply Config.table digest)
  | .derive deviceMac userData serial, c => derive Config.table deviceMac userData serial c

/-- `exec` completes every command with its effect. -/
theorem exec_eq_complete (i : Instr) (s : State) :
    exec i s = .next (s.complete (commandEffect i s.ctx).1 (commandEffect i s.ctx).2) := by
  cases i with
  | shaInit => exact exec_shaInit s
  | shaUpdate data => exact exec_shaUpdate s data
  | shaFinal => exact exec_shaFinal s
  | crc8 init data => exact exec_crc8 s init data
  | snCheck serial => exact exec_snCheck s serial
  | mac message secret => exact exec_mac s message secret
  | scramble digest => exact exec_scramble s digest
  | derive deviceMac userData serial => exact exec_derive s deviceMac userData serial

theorem exec_of_effect {i : Instr} {s : State} {c : Ctx} {r : Reply} (effect : commandEffect i s.ctx = (c, r)) :
    exec i s = .next (s.complete c r) := by
  rw [exec_eq_complete, effect]

theorem eq_complete_of_exec {i : Instr} {s t : State} (ran : exec i s = .next t) :
    t = s.complete (commandEffect i s.ctx).1 (commandEffect i s.ctx).2 := by
  rw [exec_eq_complete, Host.Outcome.next.injEq] at ran
  exact ran.symm

/-! ## Runs of commands -/

@[simp] theorem runCommands_nil (s : State) : runCommands [] s = s := rfl

@[simp] theorem runCommands_cons (i : Instr) (is : List Instr) (s : State) :
    runCommands (i :: is) s = runCommands is (s.complete (commandEffect i s.ctx).1 (commandEffect i s.ctx).2) := by
  rw [runCommands, exec_eq_complete]

theorem runCommands_cons_of_effect {i : Instr} {is : List Instr} {s : State} {c : Ctx} {r : Reply}
    (effect : commandEffect i s.ctx = (c, r)) : runCommands (i :: is) s = runCommands is (s.complete c r) := by
  rw [runCommands_cons, effect]

theorem runCommands_append (is js : List Instr) : ∀ s : State,
    runCommands (is ++ js) s = runCommands js (runCommands is s) := by
  induction is with
  | nil => exact fun s => rfl
  | cons i is ih => intro s; rw [List.cons_append, runCommands_cons, runCommands_cons, ih]

/-- Commands that leave the context `c` as it is, each run on it, leave it as it is. -/
theorem runCommands_ctx_of_keeps {c : Ctx} (is : List Instr) (keeps : ∀ i ∈ is, (commandEffect i c).1 = c) :
    ∀ s : State, s.ctx = c → (runCommands is s).ctx = c := by
  induction is with
  | nil => exact fun s found => found
  | cons i is ih =>
    intro s found
    rw [runCommands_cons]
    refine ih (fun j later => keeps j (List.mem_cons_of_mem i later)) _ ?_
    rw [State.complete_ctx, found, keeps i List.mem_cons_self]

/-! ## The commands that the context and the command decide -/

/-- `CRC8`, `SN_CHECK`, `MAC` and `SCRAMBLE` have one reply for every context, and keep it (10_state.md R36). -/
theorem commandEffect_of_ignoresContext {i : Instr} (ignores : ignoresContext i = true) :
    ∃ result, ∀ c, commandEffect i c = (c, { status := .ok, result := result }) := by
  cases i with
  | crc8 | snCheck | mac | scramble => exact ⟨_, fun c => rfl⟩
  | shaInit | shaUpdate | shaFinal | derive => simp [ignoresContext] at ignores

/-- A command that does not restart the context ignores it, or is `SHA_UPDATE` or `SHA_FINAL`. -/
theorem ignoresContext_or_of_restartsContext {i : Instr} (noRestart : restartsContext i = false) :
    ignoresContext i = true ∨ (∃ data, i = .shaUpdate data) ∨ i = .shaFinal := by
  cases i with
  | crc8 | snCheck | mac | scramble => exact .inl rfl
  | shaUpdate data => exact .inr (.inl ⟨data, rfl⟩)
  | shaFinal => exact .inr (.inr rfl)
  | shaInit | derive => simp [restartsContext] at noRestart

/-- Settles O52: the reply of `commandEffect_of_ignoresContext`. -/
theorem contextFreeCommands : Obligations.ContextFreeCommands := by
  intro i ignores
  obtain ⟨result, effect⟩ := commandEffect_of_ignoresContext ignores
  refine ⟨0x00 :: result, fun s => ?_⟩
  rw [exec_of_effect (effect s.ctx), State.complete_ctx_ok]

/-! ## The responses -/

/-- The status of a context's error cause is one of three codes (10_state.md R26). -/
theorem CtxErr.statusCode_cases (e : CtxErr) :
    statusCode e.status = 0x00 ∨ statusCode e.status = 0x02 ∨ statusCode e.status = 0x03 := by
  cases e <;> decide

theorem shaUpdate_packet_cases (data : List Byte) (c : Ctx) :
    (shaUpdate data c).2.packet = [0x00] ∨ (shaUpdate data c).2.packet = [0x02] ∨ (shaUpdate data c).2.packet = [0x03] := by
  rcases shaUpdate_cases data c with ⟨_, eq⟩ | ⟨_, _, eq⟩ | ⟨_, _, eq⟩ <;> rw [eq, Reply.packet_nil]
  · exact .inr (.inr rfl)
  · simpa using c.err.statusCode_cases
  · simpa using (acceptBytes data c).err.statusCode_cases

theorem shaFinal_packet_cases (c : Ctx) :
    (∃ d : List Byte, d.length = 20 ∧ (shaFinal c).2.packet = 0x00 :: d) ∨ (shaFinal c).2.packet = [0x02] ∨
      (shaFinal c).2.packet = [0x03] := by
  rcases shaFinal_cases c with ⟨corrupted, eq⟩ | ⟨_, _, eq⟩ | ⟨_, _, eq⟩ <;> rw [eq]
  · rw [Reply.packet_nil]
    rcases c.err.statusCode_cases with ok | tooLong | sequence
    · exact absurd ((CtxErr.status_eq_ok c.err).mp ((statusCode_eq_zero _).mp ok)) corrupted
    · exact .inr (.inl (by rw [tooLong]))
    · exact .inr (.inr (by rw [sequence]))
  · exact .inl ⟨_, digestBytes_length _, Reply.packet_ok _⟩
  · exact .inl ⟨_, digestBytes_length _, Reply.packet_ok _⟩

/-- Settles O11: every command completes with its effect (`exec_eq_complete`); the two commands that can fail have the packets
of `shaUpdate_packet_cases` and `shaFinal_packet_cases`, the others an `OK` packet. -/
theorem everyCommandCompletes : Obligations.EveryCommandCompletes := by
  intro i s
  refine ⟨(commandEffect i s.ctx).1, (commandEffect i s.ctx).2.packet, exec_eq_complete i s, ?_⟩
  cases i with
  | shaUpdate data => exact shaUpdate_packet_cases data s.ctx
  | shaFinal => exact shaFinal_packet_cases s.ctx
  | shaInit => exact ⟨_, rfl, Reply.packet_ok _⟩
  | crc8 init data => exact ⟨_, rfl, Reply.packet_ok _⟩
  | snCheck serial => exact ⟨_, rfl, Reply.packet_ok _⟩
  | mac message secret => exact ⟨_, macBytes_length _, Reply.packet_ok _⟩
  | scramble digest => exact ⟨_, Vector.length_toList, Reply.packet_ok _⟩
  | derive deviceMac userData serial =>
    exact ⟨_, derive_result_length Config.table deviceMac userData serial s.ctx, Reply.packet_ok _⟩

/-! ## Runs of steps -/

/-- Every step answers a next state: idle, refused or completed (60_exceptions.md R200). -/
theorem step_answers (s : State) : ∃ t, step s = .next t := by
  rcases waits : s.input with _ | ⟨p, rest⟩
  · exact ⟨s, step_of_idle waits⟩
  · cases read : decode p with
    | refused e => exact ⟨_, step_of_refused waits read⟩
    | command i => exact ⟨_, (step_of_command waits read).trans (exec_eq_complete i _)⟩

theorem run_succ_of_step {s t : State} (k : Nat) (stepped : step s = .next t) :
    Host.Core.run core (k + 1) s = Host.Core.run core k t := by
  have coreStep : core.step s = .next t := stepped
  simp only [Host.Core.run, coreStep]

/-- Settles O12, by induction on the number of steps, each of which answers (`step_answers`). -/
theorem noRunStops : Obligations.NoRunStops := by
  intro k
  induction k with
  | zero => exact fun s => ⟨s, rfl⟩
  | succ k ih =>
    intro s
    obtain ⟨t, stepped⟩ := step_answers s
    obtain ⟨u, ran⟩ := ih t
    exact ⟨u, (run_succ_of_step k stepped).trans ran⟩

/-- Settles O13, by induction on the commands: the packet at the head decodes to its command (`decodeWith_encode`), whose effect
does not depend on what else waits in the stream. -/
theorem packetStreamRunsCommands : Obligations.PacketStreamRunsCommands := by
  intro is rest
  induction is with
  | nil =>
    intro s _ waits
    obtain rfl : s.input = rest := waits
    rfl
  | cons i is ih =>
    intro s wf waits
    rw [List.map_cons, List.cons_append] at waits
    have read : decode (encode i) = .command i := decodeWith_encode _ i (wf i List.mem_cons_self)
    have stepped := (step_of_command waits read).trans (exec_eq_complete i _)
    rw [List.length_cons, run_succ_of_step _ stepped, runCommands_cons]
    exact ih _ (fun j later => wf j (List.mem_cons_of_mem i later)) rfl

end Sys2Proof.Machine
end

section
/-! One accepted byte, and the loop of `SHA_UPDATE` over joined data (40_sha1_engine_a.md R108, R109, R114). -/

namespace Sys2Proof.Machine

/-! ## One byte -/

@[simp] theorem acceptByte_buf (v : Byte) (c : Ctx) : (acceptByte v c).buf = c.buf.setIfInBounds c.idx v := by
  rcases acceptByte_cases v c with ⟨_, eq⟩ | ⟨_, eq⟩
  · rw [eq, Ctx.processBlock_buf, Ctx.countByte_buf, Ctx.storeByte_buf]
  · rw [eq, Ctx.countByte_buf, Ctx.storeByte_buf]

/-- The byte that fills the buffer is followed by a compression of the buffer with that byte in it. -/
theorem acceptByte_h (v : Byte) (c : Ctx) :
    (acceptByte v c).h = if c.idx = 63 then compress c.h (acceptByte v c).buf.toList else c.h := by
  rw [acceptByte_buf]
  rcases acceptByte_cases v c with ⟨full, eq⟩ | ⟨notFull, eq⟩
  · rw [eq, if_pos full, Ctx.processBlock_h, Ctx.countByte_h, Ctx.countByte_buf, Ctx.storeByte_h, Ctx.storeByte_buf]
  · rw [eq, if_neg notFull, Ctx.countByte_h, Ctx.storeByte_h]

/-- Settles O15: one lemma about `acceptByte` for each field. -/
theorem acceptByteFields : Obligations.AcceptByteFields := by
  intro v c opened clear room
  refine ⟨fun j inside => ?_, ?_, acceptByte_lenLo v c, acceptByte_lenHi v c, ?_, acceptByte_h v c, ?_⟩
  · simp only [acceptByte_buf, Vector.getElem_setIfInBounds, eq_comm]
  · rw [acceptByte_idx v c room]
    split_ifs with full
    · rw [full]
    · exact Nat.mod_eq_of_lt (by omega)
  · rw [acceptByte_err, clear]
  · rw [acceptByte_finalized, opened]

/-- Settles O18: the first byte wraps both halves of the counter and so corrupts the context, and the loop stops after it. -/
theorem shaUpdateOverflow : Obligations.ShaUpdateOverflow := by
  intro v rest s opened clear full hi lo
  have err : (acceptByte v s.ctx).err = .tooLong := by rw [acceptByte_err, hi, lo]; rfl
  have corrupts : (acceptByte v s.ctx).err ≠ .clear := by rw [err]; decide
  have update (data : List Byte) : exec (.shaUpdate (v :: data)) s =
      .next { s with ctx := acceptByte v s.ctx, output := s.output ++ [[0x02]] } := by
    rcases shaUpdate_cases (v :: data) s.ctx with ⟨final, _⟩ | ⟨_, corrupted, _⟩ | ⟨_, _, eq⟩
    · simp [opened] at final
    · exact absurd clear corrupted
    · rw [exec_shaUpdate_of_eq eq, acceptBytes_cons_of_corrupts data corrupts, err, State.complete_status]
      rfl
  refine ⟨acceptByte v s.ctx, update rest, update [], err, ?_, ?_, ?_, ?_⟩
  · rw [acceptByte_lenHi, hi, lo]; rfl
  · rw [acceptByte_lenLo, lo]; rfl
  · rw [acceptByte_idx v s.ctx full.le, full]
  · rw [acceptByte_finalized, opened]

/-! ## The loop -/

@[simp] theorem acceptBytes_nil (c : Ctx) : acceptBytes [] c = c := rfl

@[simp] theorem acceptBytes_finalized (data : List Byte) : ∀ c : Ctx, (acceptBytes data c).finalized = c.finalized := by
  induction data with
  | nil => exact fun c => rfl
  | cons v vs ih =>
    intro c
    by_cases clear : (acceptByte v c).err = .clear
    · rw [acceptBytes_cons_of_clear vs clear, ih, acceptByte_finalized]
    · rw [acceptBytes_cons_of_corrupts vs clear, acceptByte_finalized]

/-- The loop goes on with the second part of the data, unless the first part corrupted the context. -/
theorem acceptBytes_append (a b : List Byte) : ∀ c : Ctx, c.err = .clear →
    acceptBytes (a ++ b) c = if (acceptBytes a c).err = .clear then acceptBytes b (acceptBytes a c) else acceptBytes a c := by
  induction a with
  | nil => intro c clear; rw [acceptBytes_nil, if_pos clear, List.nil_append]
  | cons v vs ih =>
    intro c _
    rw [List.cons_append]
    by_cases clear' : (acceptByte v c).err = .clear
    · rw [acceptBytes_cons_of_clear _ clear', acceptBytes_cons_of_clear _ clear', ih _ clear']
    · rw [acceptBytes_cons_of_corrupts _ clear', acceptBytes_cons_of_corrupts _ clear', if_neg clear']

theorem shaUpdate_of_open {c : Ctx} (data : List Byte) (opened : c.finalized = false) (clear : c.err = .clear) :
    shaUpdate data c = (acceptBytes data c, { status := (acceptBytes data c).err.status, result := [] }) := by
  rcases shaUpdate_cases data c with ⟨final, _⟩ | ⟨_, corrupted, _⟩ | ⟨_, _, eq⟩
  · simp [opened] at final
  · exact absurd clear corrupted
  · exact eq

theorem shaUpdate_of_corrupted {c : Ctx} (data : List Byte) (opened : c.finalized = false) (corrupted : c.err ≠ .clear) :
    shaUpdate data c = (c, { status := c.err.status, result := [] }) := by
  rcases shaUpdate_cases data c with ⟨final, _⟩ | ⟨_, _, eq⟩ | ⟨_, clear, _⟩
  · simp [opened] at final
  · exact eq
  · exact absurd clear corrupted

theorem shaUpdate_of_finalized {c : Ctx} (data : List Byte) (final : c.finalized = true) :
    shaUpdate data c = (c.raise .sequence, { status := .errSequence, result := [] }) := by
  rcases shaUpdate_cases data c with ⟨_, eq⟩ | ⟨opened, _⟩ | ⟨opened, _⟩
  · exact eq
  · simp [final] at opened
  · simp [final] at opened

/-- Two updates leave what one with the joined data leaves, in each branch of `SHA_UPDATE` (40_sha1_engine_a.md R114). -/
theorem shaUpdate_append (a b : List Byte) (c : Ctx) : (shaUpdate b (shaUpdate a c).1).1 = (shaUpdate (a ++ b) c).1 := by
  cases final : c.finalized with
  | true =>
    rw [shaUpdate_of_finalized a final, shaUpdate_of_finalized (a ++ b) final]
    exact congrArg Prod.fst (shaUpdate_of_finalized (c := c.raise .sequence) b final)
  | false =>
    by_cases clear : c.err = .clear
    · have opened' : (acceptBytes a c).finalized = false := by rw [acceptBytes_finalized, final]
      rw [shaUpdate_of_open a final clear, shaUpdate_of_open (a ++ b) final clear, acceptBytes_append a b c clear]
      split_ifs with clear'
      · rw [shaUpdate_of_open b opened' clear']
      · rw [shaUpdate_of_corrupted b opened' clear']
    · rw [shaUpdate_of_corrupted a final clear, shaUpdate_of_corrupted b final clear,
        shaUpdate_of_corrupted (a ++ b) final clear]

/-- Settles O19: `shaUpdate_append`, read through the runs of one and of two commands. -/
theorem updateChunkingInvariance : Obligations.UpdateChunkingInvariance := by
  intro a b s
  simp only [runCommands_cons, runCommands_nil, State.complete_ctx, commandEffect]
  exact shaUpdate_append a b s.ctx

end Sys2Proof.Machine
end

section
/-! The invariants of the context (10_state.md R27): they hold at reset, and every command and so every step keeps them. -/

namespace Sys2Proof.Machine

/-- Settles O24: each clause is about constants or has a false premise. -/
theorem resetMeetsInvariant : Obligations.ResetMeetsInvariant :=
  ⟨by decide, by decide, by decide, by decide, by decide⟩

theorem Ctx.Invariant.fresh : Ctx.fresh.Invariant :=
  ⟨by decide, by decide, by decide, by decide, by decide⟩

/-- An open, uncorrupted context keeps the invariants when it accepts a byte. Clause (b) is the advance of the counter and of the
fill index by one byte, each modulo its size; clause (d) is that advance at the counter's last value, where the index is 63. -/
theorem Ctx.Invariant.acceptByte {c : Ctx} (inv : c.Invariant) (opened : c.finalized = false) (clear : c.err = .clear)
    (v : Byte) : (acceptByte v c).Invariant := by
  obtain ⟨counted, whole⟩ := inv.counted opened clear
  have idx := acceptByte_idx v c inv.idx_le
  have wholeLo : c.lenLo.toNat % 8 = 0 := by
    unfold Ctx.bitLength at whole
    omega
  have length := acceptByte_bitLength v c wholeLo
  have opened' : (Machine.acceptByte v c).finalized = false := by rw [acceptByte_finalized, opened]
  refine ⟨by omega, fun _ _ => by omega, fun final => absurd final (by simp [opened]), fun tooLong => ?_, fun sequence => ?_⟩
  · have wraps : c.lenLo + 8 = 0 ∧ c.lenHi + 1 = 0 := by
      by_contra fits
      rw [acceptByte_err, if_neg fits, clear] at tooLong
      cases tooLong
    have lo : (Machine.acceptByte v c).lenLo = 0 := by rw [acceptByte_lenLo, wraps.1]
    have hi : (Machine.acceptByte v c).lenHi = 0 := by rw [acceptByte_lenHi, if_pos wraps.1, wraps.2]
    have zero : (Machine.acceptByte v c).bitLength = 0 := by rw [Ctx.bitLength, lo, hi]; rfl
    have bound : c.bitLength < 2 ^ 64 := by
      have := c.lenLo.isLt
      have := c.lenHi.isLt
      unfold Ctx.bitLength
      omega
    exact ⟨opened', hi, lo, by omega⟩
  · rw [acceptByte_err, clear] at sequence
    split_ifs at sequence

theorem Ctx.Invariant.acceptBytes (data : List Byte) : ∀ {c : Ctx}, c.Invariant → c.finalized = false → c.err = .clear →
    (acceptBytes data c).Invariant := by
  induction data with
  | nil => exact fun inv _ _ => inv
  | cons v vs ih =>
    intro c inv opened clear
    have inv' := inv.acceptByte opened clear v
    by_cases clear' : (Machine.acceptByte v c).err = .clear
    · rw [acceptBytes_cons_of_clear vs clear']
      exact ih inv' (by rw [acceptByte_finalized, opened]) clear'
    · rwa [acceptBytes_cons_of_corrupts vs clear']

/-- A misuse after final touches `err` only, which clauses (c) and (e) allow on a finalized context. -/
theorem Ctx.Invariant.raise_sequence {c : Ctx} (inv : c.Invariant) (final : c.finalized = true) :
    (c.raise .sequence).Invariant := by
  obtain ⟨idx, hi, lo, buf, _⟩ := inv.closed final
  exact ⟨inv.idx_le, fun opened => by simp [final] at opened, fun _ => ⟨idx, hi, lo, buf, .inr rfl⟩, nofun, fun _ => final⟩

/-- Closing a message establishes the invariants, whatever the context held: it clears all that clause (c) names. -/
theorem Ctx.Invariant.close {c : Ctx} (clear : c.err = .clear) : c.close.Invariant := by
  rw [Ctx.close_eq c clear]
  exact ⟨Nat.zero_le 63, nofun, fun _ => ⟨rfl, rfl, rfl, rfl, .inl rfl⟩, nofun, nofun⟩

theorem Ctx.Invariant.shaUpdate {c : Ctx} (inv : c.Invariant) (data : List Byte) : (shaUpdate data c).1.Invariant := by
  rcases shaUpdate_cases data c with ⟨final, eq⟩ | ⟨_, _, eq⟩ | ⟨opened, clear, eq⟩ <;> rw [eq]
  · exact inv.raise_sequence final
  · exact inv
  · exact Ctx.Invariant.acceptBytes data inv opened clear

theorem Ctx.Invariant.shaFinal {c : Ctx} (inv : c.Invariant) : (shaFinal c).1.Invariant := by
  rcases shaFinal_cases c with ⟨_, eq⟩ | ⟨_, _, eq⟩ | ⟨clear, _, eq⟩ <;> rw [eq]
  · exact inv
  · exact inv
  · exact Ctx.Invariant.close clear

/-- `DERIVE` leaves what its inner `SHA_FINAL` leaves. -/
theorem derive_ctx (table : ScrambleTable) (deviceMac : Bytes 8) (userData : Bytes 64) (serial : Bytes 8) (c : Ctx) :
    (derive table deviceMac userData serial c).1 =
      (shaFinal (shaUpdate (deriveMessage deviceMac userData serial) Ctx.fresh).1).1 := by
  simp only [derive, deriveHash_eq_shaFinal]

theorem Ctx.Invariant.commandEffect {c : Ctx} (inv : c.Invariant) (i : Instr) : (commandEffect i c).1.Invariant := by
  cases i with
  | shaInit => exact Ctx.Invariant.fresh
  | shaUpdate data => exact inv.shaUpdate data
  | shaFinal => exact inv.shaFinal
  | crc8 | snCheck | mac | scramble => exact inv
  | derive deviceMac userData serial =>
    rw [Machine.commandEffect, derive_ctx]
    exact (Ctx.Invariant.fresh.shaUpdate _).shaFinal

/-- Settles O25: a step keeps the context, or leaves the one that a command makes of it (`step_cases`), and every command keeps
the invariants (`Ctx.Invariant.commandEffect`). -/
theorem stepKeepsInvariant : Obligations.StepKeepsInvariant := by
  intro s t inv stepped
  rcases step_cases stepped with ⟨_, rfl⟩ | ⟨p, rest, e, _, _, rfl⟩ | ⟨p, rest, i, _, _, ran⟩
  · exact inv
  · exact inv
  · rw [eq_complete_of_exec ran]
    exact inv.commandEffect i

end Sys2Proof.Machine
end

section
/-! The states that only a restart leaves (60_exceptions.md R202, R203, R205; 40_sha1_engine_a.md R113): a sticky error, and a
finalized context. -/

namespace Sys2Proof.Machine

theorem shaFinal_of_corrupted {c : Ctx} (corrupted : c.err ≠ .clear) :
    shaFinal c = (c, { status := c.err.status, result := [] }) := by
  rcases shaFinal_cases c with ⟨_, eq⟩ | ⟨clear, _⟩ | ⟨clear, _⟩
  · exact eq
  · exact absurd clear corrupted
  · exact absurd clear corrupted

/-- On a corrupted context that meets the invariants `SHA_UPDATE` changes nothing: if it is finalized, its cause already is the
`SEQUENCE` that a misuse writes (10_state.md R27 (c)). -/
theorem shaUpdate_of_sticky {c : Ctx} (inv : c.Invariant) (corrupted : c.err ≠ .clear) (data : List Byte) :
    shaUpdate data c = (c, { status := c.err.status, result := [] }) := by
  cases final : c.finalized with
  | false => exact shaUpdate_of_corrupted data final corrupted
  | true =>
    obtain ⟨_, _, _, _, clear | sequence⟩ := inv.closed final
    · exact absurd clear corrupted
    · have stays : c.raise .sequence = c := by rw [← sequence]; rfl
      rw [shaUpdate_of_finalized data final, stays, sequence]
      rfl

theorem commandEffect_of_sticky {c : Ctx} (inv : c.Invariant) (corrupted : c.err ≠ .clear) {i : Instr}
    (noRestart : restartsContext i = false) : (commandEffect i c).1 = c := by
  rcases ignoresContext_or_of_restartsContext noRestart with ignores | ⟨data, rfl⟩ | rfl
  · obtain ⟨_, effect⟩ := commandEffect_of_ignoresContext ignores
    rw [effect]
  · exact congrArg Prod.fst (shaUpdate_of_sticky inv corrupted data)
  · exact congrArg Prod.fst (shaFinal_of_corrupted corrupted)

/-- Settles O22: no command without a restart changes a corrupted context (`commandEffect_of_sticky`), so the two Engine A
commands answer the status of the same cause after any run of them. -/
theorem stickyErrorPersists : Obligations.StickyErrorPersists := by
  intro s is data inv corrupted noRestart
  have kept : (runCommands is s).ctx = s.ctx :=
    runCommands_ctx_of_keeps is (fun i used => commandEffect_of_sticky inv corrupted (noRestart i used)) s rfl
  refine ⟨kept, ?_, ?_⟩
  · rw [exec_shaUpdate, kept, shaUpdate_of_sticky inv corrupted, State.complete_status, ← kept]
  · rw [exec_shaFinal, kept, shaFinal_of_corrupted corrupted, State.complete_status, ← kept]

/-- A command that does not restart keeps a corrupted context corrupted and a finalized one finalized. -/
theorem commandEffect_keeps_flags {i : Instr} (noRestart : restartsContext i = false) (c : Ctx) :
    (c.err ≠ .clear → (commandEffect i c).1.err ≠ .clear) ∧
      (c.finalized = true → (commandEffect i c).1.finalized = true) := by
  rcases ignoresContext_or_of_restartsContext noRestart with ignores | ⟨data, rfl⟩ | rfl
  · obtain ⟨_, effect⟩ := commandEffect_of_ignoresContext ignores
    rw [effect]
    exact ⟨id, id⟩
  · rw [commandEffect]
    rcases shaUpdate_cases data c with ⟨final, eq⟩ | ⟨_, _, eq⟩ | ⟨opened, clear, eq⟩ <;> rw [eq]
    · exact ⟨fun _ => by simp, fun _ => final⟩
    · exact ⟨id, id⟩
    · exact ⟨fun corrupted => absurd clear corrupted, fun final => by simp [opened] at final⟩
  · rw [commandEffect]
    rcases shaFinal_cases c with ⟨_, eq⟩ | ⟨_, _, eq⟩ | ⟨clear, _, eq⟩ <;> rw [eq]
    · exact ⟨id, id⟩
    · exact ⟨id, id⟩
    · exact ⟨fun corrupted => absurd clear corrupted, fun _ => Ctx.close_finalized c⟩

/-- Settles O53: `commandEffect_keeps_flags`; and `SHA_INIT` leaves the fresh context from every state. -/
theorem onlyRestartsClear : Obligations.OnlyRestartsClear := by
  refine ⟨fun i s t noRestart ran => ?_, fun s => ⟨_, exec_shaInit s, Ctx.fresh_err, Ctx.fresh_finalized⟩⟩
  rw [eq_complete_of_exec ran]
  exact commandEffect_keeps_flags noRestart s.ctx

/-- A context whose digest has been extracted answers it again and stays. -/
theorem shaFinal_of_finalized {c : Ctx} (clear : c.err = .clear) (final : c.finalized = true) :
    shaFinal c = (c, { status := .ok, result := digestBytes c.h }) := by
  rcases shaFinal_cases c with ⟨corrupted, _⟩ | ⟨_, _, eq⟩ | ⟨_, opened, _⟩
  · exact absurd clear corrupted
  · exact eq
  · simp [final] at opened

/-- `SHA_FINAL` that answers `OK` leaves a context on which it answers the same and changes nothing. -/
theorem shaFinal_twice {c c' : Ctx} {r : Reply} (first : shaFinal c = (c', r)) (ok : r.status = .ok) :
    shaFinal c' = (c', r) := by
  rcases shaFinal_cases c with ⟨corrupted, eq⟩ | ⟨clear, final, eq⟩ | ⟨clear, _, eq⟩ <;>
    obtain ⟨rfl, rfl⟩ := Prod.mk.inj (first.symm.trans eq)
  · exact absurd ((CtxErr.status_eq_ok _).mp ok) corrupted
  · exact shaFinal_of_finalized clear final
  · exact shaFinal_of_finalized (by rw [Ctx.close_err, clear]) (Ctx.close_finalized c)

/-- Only `OK` has the code 00. -/
theorem Reply.status_ok_of_packet {r : Reply} {d : List Byte} (packet : r.packet = 0x00 :: d) : r.status = .ok := by
  rcases r.packet_cases with ⟨ok, _⟩ | ⟨_, single⟩
  · exact ok
  · rw [single, List.cons.injEq] at packet
    exact (statusCode_eq_zero _).mp packet.1

/-- Settles O21: the first answer was `OK` with the digest, the commands in between keep the context
(`commandEffect_of_ignoresContext`), and `shaFinal_twice` gives the second answer. -/
theorem finalIsIdempotent : Obligations.FinalIsIdempotent := by
  intro s t d is ran answered ignores
  rcases first : shaFinal s.ctx with ⟨c, r⟩
  rw [exec_shaFinal_of_eq first, Host.Outcome.next.injEq] at ran
  subst ran
  have packet : r.packet = 0x00 :: d := by
    rwa [State.complete_output, List.append_cancel_left_eq, List.singleton_inj] at answered
  have kept : (runCommands is (s.complete c r)).ctx = c := by
    refine runCommands_ctx_of_keeps is (fun i used => ?_) _ rfl
    obtain ⟨_, effect⟩ := commandEffect_of_ignoresContext (ignores i used)
    rw [effect]
  have again : shaFinal (runCommands is (s.complete c r)).ctx = (c, r) := by
    rw [kept, shaFinal_twice first (Reply.status_ok_of_packet packet)]
  exact ⟨_, exec_shaFinal_of_eq again, rfl, by rw [State.complete_output, packet]⟩

end Sys2Proof.Machine
end

section
/-! The constants and the round functions of the compression (40_sha1_engine_a.md R100 to R104), and rotation (00_scope.md R10). -/

namespace Sys2Proof.Machine

/-- Settles O26: each bound selects one branch of `Config.roundConstant`. -/
theorem hashConstants : Obligations.HashConstants := by
  refine ⟨rfl, fun t => ⟨fun _ => ?_, fun _ _ => ?_, fun _ _ => ?_, fun _ _ => ?_⟩⟩ <;> unfold Config.roundConstant
  · rw [if_pos (by omega)]
  · rw [if_neg (by omega), if_pos (by omega)]
  · rw [if_neg (by omega), if_neg (by omega), if_pos (by omega)]
  · rw [if_neg (by omega), if_neg (by omega), if_neg (by omega)]

section Phases

variable {t : Nat} (b c d : Word)

theorem roundFunction_choose (phase : t ≤ 19) : roundFunction t b c d = chooseWord b c d :=
  if_pos (by omega)

theorem roundFunction_parity (after : 20 ≤ t) (phase : t ≤ 39) : roundFunction t b c d = parityWord b c d := by
  rw [roundFunction, if_neg (by omega), if_pos (by omega)]

theorem roundFunction_majority (after : 40 ≤ t) (phase : t ≤ 59) : roundFunction t b c d = majorityWord b c d := by
  rw [roundFunction, if_neg (by omega), if_neg (by omega), if_pos (by omega)]

theorem roundFunction_lastParity (after : 60 ≤ t) : roundFunction t b c d = parityWord b c d := by
  rw [roundFunction, if_neg (by omega), if_neg (by omega), if_neg (by omega)]

end Phases

/-- Each formula is made of bitwise operations, so bit `i` of the result is a function of the operands' bits `i`. -/
theorem roundFunction_getLsbD_congr (t : Nat) {i : Nat} {b c d b' c' d' : Word} (hb : b.getLsbD i = b'.getLsbD i)
    (hc : c.getLsbD i = c'.getLsbD i) (hd : d.getLsbD i = d'.getLsbD i) :
    (roundFunction t b c d).getLsbD i = (roundFunction t b' c' d').getLsbD i := by
  unfold roundFunction
  split_ifs
  · simp only [chooseWord, BitVec.getLsbD_or, BitVec.getLsbD_and, BitVec.getLsbD_not, hb, hc, hd]
  · simp only [parityWord, BitVec.getLsbD_xor, hb, hc, hd]
  · simp only [majorityWord, BitVec.getLsbD_or, BitVec.getLsbD_and, hb, hc, hd]
  · simp only [parityWord, BitVec.getLsbD_xor, hb, hc, hd]

/-- Settles O27: the formula of each phase, `roundFunction_getLsbD_congr`, and the worked values evaluated. -/
theorem roundFunctions : Obligations.RoundFunctions :=
  ⟨fun _ b c d => ⟨roundFunction_choose b c d, roundFunction_parity b c d, roundFunction_majority b c d,
      fun after _ => roundFunction_lastParity b c d after⟩,
    fun t _ _ _ _ _ _ _ _ hb hc hd => roundFunction_getLsbD_congr t hb hc hd, by decide, by decide, by decide⟩

theorem roundsFrom_append (w ws : List Word) : ∀ (t : Nat) (s : HashWords),
    roundsFrom t s (w ++ ws) = roundsFrom (t + w.length) (roundsFrom t s w) ws := by
  induction w with
  | nil => exact fun t s => rfl
  | cons x w ih =>
    intro t s
    rw [List.cons_append, roundsFrom, roundsFrom, ih, List.length_cons, Nat.add_right_comm, Nat.add_assoc]

/-- The last word of a schedule makes the last round, on the registers that the words before it leave. -/
theorem rounds_concat (s : HashWords) (w : List Word) (x : Word) :
    rounds s (w ++ [x]) = compressionRound w.length x (rounds s w) := by
  simp only [rounds, roundsFrom_append, roundsFrom, Nat.zero_add]

/-- Settles O29: `rounds_concat`, the round written out. -/
theorem roundsRecurrence : Obligations.RoundsRecurrence :=
  ⟨fun _ => rfl, rounds_concat⟩

/-- Settles O31: reduction modulo 2^32 goes through the or, and a right shift is below 2^32 anyway. -/
theorem rotateLeftFormula : Obligations.RotateLeftFormula := by
  intro x n _ _
  have right : x.toNat >>> (32 - n) < 2 ^ 32 :=
    Nat.lt_of_le_of_lt (Nat.shiftRight_le _ _) x.isLt
  rw [rotl, BitVec.toNat_or, BitVec.toNat_shiftLeft, BitVec.toNat_ushiftRight, Nat.or_mod_two_pow, Nat.mod_eq_of_lt right]

end Sys2Proof.Machine
end

section
/-! The message that a context holds (40_sha1_engine_a.md R108 to R110, R115): its whole blocks compressed into `H`, the rest
pending in the buffer. Accepting a byte appends it to that message. -/

namespace Sys2Proof.Machine

/-! ## Blocks in order -/

theorem compressBlocks_add (m n : Nat) : ∀ (h : HashWords) (l : List Byte),
    compressBlocks (m + n) h l = compressBlocks n (compressBlocks m h l) (l.drop (64 * m)) := by
  induction m with
  | zero => intro h l; rw [Nat.zero_add, compressBlocks, Nat.mul_zero, List.drop_zero]
  | succ m ih =>
    intro h l
    rw [Nat.add_right_comm, compressBlocks, compressBlocks, ih, List.drop_drop, Nat.mul_succ, Nat.add_comm 64]

/-- Blocks are taken from the front, so bytes after them make no difference. -/
theorem compressBlocks_append (n : Nat) (rest : List Byte) : ∀ (h : HashWords) (l : List Byte), 64 * n ≤ l.length →
    compressBlocks n h (l ++ rest) = compressBlocks n h l := by
  induction n with
  | zero => exact fun h l _ => rfl
  | succ n ih =>
    intro h l enough
    rw [compressBlocks, compressBlocks, List.take_append_of_le_length (by omega), List.drop_append_of_le_length (by omega),
      ih _ _ (by rw [List.length_drop]; omega)]

/-! ## Pending bytes -/

/-- The bytes that wait in the buffer for their block. -/
def Ctx.pending (c : Ctx) : List Byte :=
  c.buf.toList.take c.idx

theorem Ctx.pending_length {c : Ctx} (room : c.idx ≤ 63) : c.pending.length = c.idx := by
  rw [Ctx.pending, List.length_take, Vector.length_toList]
  omega

/-- A byte that does not fill the buffer waits in it. -/
theorem acceptByte_pending_of_lt (v : Byte) {c : Ctx} (room : c.idx < 63) : (acceptByte v c).pending = c.pending ++ [v] := by
  rw [Ctx.pending, acceptByte_idx v c room.le, Nat.mod_eq_of_lt (by omega), acceptByte_buf,
    take_setIfInBounds c.buf c.idx v (by omega), Ctx.pending]

/-- A byte that fills the buffer completes a block of the pending bytes, and nothing waits after it. -/
theorem acceptByte_pending_of_full (v : Byte) {c : Ctx} (full : c.idx = 63) :
    (acceptByte v c).pending = [] ∧ (acceptByte v c).h = compress c.h (c.pending ++ [v]) := by
  have block := take_setIfInBounds c.buf c.idx v (by omega)
  rw [List.take_of_length_le (by rw [Vector.length_toList]; omega)] at block
  constructor
  · rw [Ctx.pending, acceptByte_idx v c full.le, full]
    rfl
  · rw [acceptByte_h, if_pos full, acceptByte_buf, block, Ctx.pending]

/-! ## Held messages -/

/-- The context holds the message `m` on top of the hash state `h`: the whole blocks of `m` are compressed into `h`, and the
bytes after them are pending. -/
structure Ctx.Holds (h : HashWords) (m : List Byte) (c : Ctx) : Prop where
  idx : c.idx = m.length % 64
  hash : c.h = compressBlocks (m.length / 64) h m
  rest : c.pending = m.drop (64 * (m.length / 64))

/-- Every context with its index in the buffer holds its pending bytes. -/
theorem Ctx.Holds.pending {c : Ctx} (room : c.idx ≤ 63) : c.Holds c.h c.pending := by
  have noBlock : c.idx / 64 = 0 := by omega
  refine ⟨?_, ?_, ?_⟩ <;> rw [Ctx.pending_length room]
  · exact (Nat.mod_eq_of_lt (by omega)).symm
  · rw [noBlock, compressBlocks]
  · rw [noBlock, Nat.mul_zero, List.drop_zero]

theorem Ctx.Holds.fresh : Ctx.fresh.Holds Config.iv [] :=
  ⟨rfl, rfl, rfl⟩

/-- An accepted byte is appended to the held message: it joins the pending bytes, or completes their block. -/
theorem Ctx.Holds.acceptByte {h : HashWords} {m : List Byte} {c : Ctx} (holds : c.Holds h m) (v : Byte) :
    (acceptByte v c).Holds h (m ++ [v]) := by
  obtain ⟨idx, hash, rest⟩ := holds
  have room : c.idx ≤ 63 := by omega
  have wholeBlocks : 64 * (m.length / 64) ≤ m.length := Nat.mul_div_le _ _
  have tail : (m ++ [v]).drop (64 * (m.length / 64)) = c.pending ++ [v] := by
    rw [List.drop_append_of_le_length wholeBlocks, rest]
  have compressed : compressBlocks (m.length / 64) h (m ++ [v]) = c.h := by
    rw [compressBlocks_append _ _ _ _ wholeBlocks, hash]
  have idx' : (Machine.acceptByte v c).idx = (m ++ [v]).length % 64 := by
    rw [acceptByte_idx v c room, idx, List.length_append, List.length_singleton]
    omega
  rcases Nat.lt_or_eq_of_le room with notFull | full
  · have blocks : (m ++ [v]).length / 64 = m.length / 64 := by
      rw [List.length_append, List.length_singleton]
      omega
    refine ⟨idx', ?_, ?_⟩ <;> rw [blocks]
    · rw [compressed, acceptByte_h, if_neg notFull.ne]
    · rw [tail, acceptByte_pending_of_lt v notFull]
  · have blocks : (m ++ [v]).length / 64 = m.length / 64 + 1 := by
      rw [List.length_append, List.length_singleton]
      omega
    obtain ⟨emptied, completed⟩ := acceptByte_pending_of_full v full
    have block : (c.pending ++ [v]).length = 64 := by
      rw [List.length_append, Ctx.pending_length room, full, List.length_singleton]
    refine ⟨idx', ?_, ?_⟩ <;> rw [blocks]
    · rw [compressBlocks_add, tail, compressed, compressBlocks_one _ block, completed]
    · rw [Nat.mul_succ, ← List.drop_drop, tail, List.drop_of_length_le block.le, emptied]

/-- Data whose bits fit the counter are appended to the held message. -/
theorem Ctx.Holds.acceptBytes {h : HashWords} (data : List Byte) : ∀ {m : List Byte} {c : Ctx}, c.Holds h m →
    c.err = .clear → c.bitLength % 8 = 0 → c.bitLength + 8 * data.length < 2 ^ 64 →
    (acceptBytes data c).Holds h (m ++ data) := by
  induction data with
  | nil => intro m c holds _ _ _; rwa [List.append_nil]
  | cons v vs ih =>
    intro m c holds clear whole fits
    rw [List.length_cons] at fits
    have clear' := acceptByte_err_of_fits v clear (by omega)
    have counted := acceptByte_bitLength_of_fits v whole (by omega)
    rw [acceptBytes_cons_of_clear vs clear', List.append_cons]
    exact ih (holds.acceptByte v) clear' (by omega) (by omega)

/-- Data whose bits fit the counter are counted. -/
theorem acceptBytes_bitLength_of_fits (data : List Byte) : ∀ {c : Ctx}, c.err = .clear → c.bitLength % 8 = 0 →
    c.bitLength + 8 * data.length < 2 ^ 64 → (acceptBytes data c).bitLength = c.bitLength + 8 * data.length := by
  induction data with
  | nil => intro c _ _ _; rw [acceptBytes_nil, List.length_nil, Nat.mul_zero, Nat.add_zero]
  | cons v vs ih =>
    intro c clear whole fits
    rw [List.length_cons] at fits ⊢
    have clear' := acceptByte_err_of_fits v clear (by omega)
    have counted := acceptByte_bitLength_of_fits v whole (by omega)
    rw [acceptBytes_cons_of_clear vs clear', ih clear' (by omega) (by omega)]
    omega

/-- Settles O17: the context holds its pending bytes on top of its `H`, and the update appends its data to them
(`Ctx.Holds.acceptBytes`). -/
theorem shaUpdateAbsorbsBlocks : Obligations.ShaUpdateAbsorbsBlocks := by
  intro data s inv opened clear fits
  obtain ⟨_, whole⟩ := inv.counted opened clear
  have stays := acceptBytes_err_of_fits data clear whole fits
  obtain ⟨idx, hash, rest⟩ := (Ctx.Holds.pending inv.idx_le).acceptBytes data clear whole fits
  refine ⟨acceptBytes data s.ctx, ?_, by rw [acceptBytes_finalized, opened], stays,
    acceptBytes_bitLength_of_fits data clear whole fits, idx, hash, rest⟩
  rw [exec_shaUpdate_of_eq (shaUpdate_of_open data opened clear), stays, State.complete_status]
  rfl

end Sys2Proof.Machine
end

section
/-! The digest of a message that is streamed in (40_sha1_engine_a.md R110, R111, R116): the padding of the pending bytes is the end
of the padded message. `DERIVE` is one such digest (43_derive_scramble.md R185 to R187). -/

namespace Sys2Proof.Machine

/-- The two cases of the padding in one: so many zeros that the tail is whole blocks. -/
theorem Ctx.pad_h {c : Ctx} (room : c.idx ≤ 63) :
    c.pad.h = compressBlocks ((c.paddedTail (padZeros c.idx)).length / 64) c.h (c.paddedTail (padZeros c.idx)) := by
  rw [c.paddedTail_length _ room]
  by_cases late : 55 < c.idx
  · have zeros : padZeros c.idx = (63 - c.idx) + 56 := by unfold padZeros; omega
    rw [zeros, c.pad_h_of_lt late room, show (c.idx + 1 + ((63 - c.idx) + 56) + 8) / 64 = 2 by omega]
  · have zeros : padZeros c.idx = 55 - c.idx := by unfold padZeros; omega
    rw [zeros, c.pad_h_of_le (Nat.le_of_not_lt late), show (c.idx + 1 + (55 - c.idx) + 8) / 64 = 1 by omega]

/-- The counter's two halves emitted are the length field of the counted bytes (20_memory.md R54). -/
theorem Ctx.lengthField_eq {c : Ctx} {n : Nat} (counted : c.bitLength = 8 * n) :
    lengthField n = beBytes c.lenHi ++ beBytes c.lenLo := by
  have lo := c.lenLo.isLt
  have hi := c.lenHi.isLt
  unfold Ctx.bitLength at counted
  have hiWord : BitVec.ofNat 32 (8 * n / 2 ^ 32) = c.lenHi :=
    BitVec.eq_of_toNat_eq (by rw [BitVec.toNat_ofNat]; omega)
  have loWord : BitVec.ofNat 32 (8 * n) = c.lenLo :=
    BitVec.eq_of_toNat_eq (by rw [BitVec.toNat_ofNat]; omega)
  rw [lengthField, hiWord, loWord]

/-- A context that holds a message and has counted it pads it as RFC 3174 does: past the whole blocks of the padded message
stands the padded tail. -/
theorem Ctx.Holds.drop_padMessage {h : HashWords} {m : List Byte} {c : Ctx} (holds : c.Holds h m)
    (counted : c.bitLength = 8 * m.length) :
    (padMessage m).drop (64 * (m.length / 64)) = c.paddedTail (padZeros c.idx) := by
  have zeros : padZeros m.length = padZeros c.idx := by rw [holds.idx, padZeros, padZeros, Nat.mod_mod]
  have wholeBlocks : 64 * (m.length / 64) ≤ m.length := Nat.mul_div_le _ _
  rw [padMessage, Ctx.lengthField_eq counted, zeros, Ctx.paddedTail, ← Ctx.pending, holds.rest]
  simp only [List.append_assoc]
  rw [List.drop_append_of_le_length wholeBlocks]

/-- Padding a held message gives its digest words: the blocks before the tail are in `H` already. -/
theorem Ctx.Holds.pad_h {m : List Byte} {c : Ctx} (holds : c.Holds Config.iv m) (counted : c.bitLength = 8 * m.length) :
    c.pad.h = sha1Words m := by
  have room : c.idx ≤ 63 := by have := holds.idx; omega
  have tail := holds.drop_padMessage counted
  have wholeBlocks : 64 * (m.length / 64) ≤ m.length := Nat.mul_div_le _ _
  have longer : m.length ≤ (padMessage m).length := by
    simp only [padMessage, List.append_assoc, List.length_append]
    omega
  have front : compressBlocks (m.length / 64) Config.iv (padMessage m) = c.h := by
    rw [holds.hash, padMessage]
    simp only [List.append_assoc]
    exact compressBlocks_append _ _ _ _ wholeBlocks
  have count : (padMessage m).length / 64 = m.length / 64 + (c.paddedTail (padZeros c.idx)).length / 64 := by
    rw [← tail, List.length_drop]
    omega
  rw [Ctx.pad_h room, sha1Words, count, compressBlocks_add, front, tail]

/-- The context that `SHA_FINAL` leaves with the digest words `h` (40_sha1_engine_a.md R111). -/
def Ctx.closedWith (h : HashWords) : Ctx :=
  { h := h, buf := Vector.replicate 64 0, idx := 0, lenHi := 0, lenLo := 0, finalized := true, err := .clear }

/-- `SHA_FINAL` on an open, clear context that holds a message and has counted it answers the message's digest. -/
theorem shaFinal_of_holds {m : List Byte} {c : Ctx} (holds : c.Holds Config.iv m) (counted : c.bitLength = 8 * m.length)
    (opened : c.finalized = false) (clear : c.err = .clear) :
    shaFinal c = (Ctx.closedWith (sha1Words m), { status := .ok, result := sha1 m }) := by
  rcases shaFinal_cases c with ⟨corrupted, _⟩ | ⟨_, final, _⟩ | ⟨_, _, eq⟩
  · exact absurd clear corrupted
  · simp [opened] at final
  · rw [eq, Ctx.close_h, holds.pad_h counted, Ctx.close_eq c clear, holds.pad_h counted]
    rfl

/-- A message that fits the counter, accepted after `SHA_INIT`: `SHA_FINAL` answers its digest. -/
theorem shaFinal_acceptBytes_fresh (m : List Byte) (fits : 8 * m.length < 2 ^ 64) :
    shaFinal (acceptBytes m Ctx.fresh) = (Ctx.closedWith (sha1Words m), { status := .ok, result := sha1 m }) := by
  have whole : Ctx.fresh.bitLength % 8 = 0 := rfl
  have fits' : Ctx.fresh.bitLength + 8 * m.length < 2 ^ 64 := by rwa [Ctx.fresh_bitLength, Nat.zero_add]
  have holds := Ctx.Holds.fresh.acceptBytes m Ctx.fresh_err whole fits'
  have counted := acceptBytes_bitLength_of_fits m Ctx.fresh_err whole fits'
  rw [Ctx.fresh_bitLength, Nat.zero_add] at counted
  exact shaFinal_of_holds holds counted (by rw [acceptBytes_finalized, Ctx.fresh_finalized])
    (acceptBytes_err_of_fits m Ctx.fresh_err whole fits')

/-- Updates whose data all fit the counter answer `OK` each, and leave what the loop makes of the concatenated data. -/
theorem runCommands_updates (chunks : List (List Byte)) : ∀ s : State, s.ctx.finalized = false → s.ctx.err = .clear →
    s.ctx.bitLength % 8 = 0 → s.ctx.bitLength + 8 * chunks.flatten.length < 2 ^ 64 →
    runCommands (chunks.map Instr.shaUpdate) s =
      { s with ctx := acceptBytes chunks.flatten s.ctx, output := s.output ++ chunks.map (fun _ => [0x00]) } := by
  induction chunks with
  | nil => intro s _ _ _ _; simp
  | cons chunk chunks ih =>
    intro s opened clear whole fits
    rw [List.flatten_cons, List.length_append] at fits
    have clear' := acceptBytes_err_of_fits chunk clear whole (by omega)
    have counted := acceptBytes_bitLength_of_fits chunk clear whole (by omega)
    have effect : commandEffect (.shaUpdate chunk) s.ctx = (acceptBytes chunk s.ctx, { status := .ok, result := [] }) := by
      rw [commandEffect, shaUpdate_of_open chunk opened clear, clear', CtxErr.status]
    rw [List.map_cons, runCommands_cons_of_effect effect,
      ih _ (by rw [State.complete_ctx, acceptBytes_finalized, opened]) clear' (by rw [State.complete_ctx]; omega)
        (by rw [State.complete_ctx]; omega),
      State.complete_ctx, State.complete_output, List.flatten_cons, acceptBytes_append _ _ _ clear, if_pos clear']
    simp [State.complete]

/-- Settles O23: after `SHA_INIT` the updates accept the concatenated data (`runCommands_updates`), whose digest `SHA_FINAL` answers
(`shaFinal_acceptBytes_fresh`). -/
theorem streamedDigestIsStandard : Obligations.StreamedDigestIsStandard := by
  intro chunks s fits
  have final := shaFinal_acceptBytes_fresh chunks.flatten fits
  have updates := runCommands_updates chunks (s.complete Ctx.fresh { status := .ok, result := [] })
    Ctx.fresh_finalized Ctx.fresh_err (by rw [State.complete_ctx, Ctx.fresh_bitLength])
    (by rwa [State.complete_ctx, Ctx.fresh_bitLength, Nat.zero_add])
  rw [State.complete_ctx] at updates
  simp only [runCommands_cons, runCommands_append, runCommands_nil, commandEffect, updates, final]
  refine ⟨rfl, ?_⟩
  simp

/-! ## DERIVE -/

section Derive

variable (deviceMac : Bytes 8) (userData : Bytes 64) (serial : Bytes 8)

/-- The inner commands of `DERIVE` digest its 80 operand bytes, whatever the context was. -/
theorem deriveHash_eq (c : Ctx) :
    deriveHash deviceMac userData serial c =
      (Ctx.closedWith (sha1Words (deriveMessage deviceMac userData serial)),
        { status := .ok, result := sha1 (deriveMessage deviceMac userData serial) }) := by
  rw [deriveHash_eq_shaFinal, shaUpdate_of_open _ Ctx.fresh_finalized Ctx.fresh_err, shaFinal_acceptBytes_fresh]
  rw [deriveMessage_length]
  decide

@[simp] theorem sha1_length (m : List Byte) : (sha1 m).length = 20 :=
  digestBytes_length _

/-- The scrambler reads the first 16 bytes of a digest (43_derive_scramble.md R182). -/
theorem scrambleVector_ofList {d : List Byte} (whole : d.length = 20) :
    scrambleVector (Bytes.ofList 20 d) = Bytes.ofList 16 d := by
  rw [scrambleVector, Bytes.toList_ofList 20 d whole.ge, List.take_of_length_le whole.le]

theorem derive_eq (table : ScrambleTable) (c : Ctx) :
    derive table deviceMac userData serial c =
      (Ctx.closedWith (sha1Words (deriveMessage deviceMac userData serial)),
        { status := .ok
          result := (scramblePairs table.pairs
            (Bytes.ofList 16 (sha1 (deriveMessage deviceMac userData serial)))).toList.take 8 }) := by
  rw [derive_of_deriveHash deviceMac userData serial table (deriveHash_eq deviceMac userData serial c), scrambleDigest,
    scrambleVector_ofList (sha1_length _)]

end Derive

/-- Settles O50: `derive_eq`, in which the context found does not occur. -/
theorem deriveIsPure : Obligations.DeriveIsPure := by
  intro deviceMac userData serial s
  rw [exec_derive, derive_eq, State.complete, Reply.packet_ok]
  rfl

/-- Settles O51: `DERIVE` leaves a finalized context (`derive_eq`), on which an update is a misuse. -/
theorem deriveEndsMessage : Obligations.DeriveEndsMessage := by
  intro deviceMac userData serial data s
  have misuse (h : HashWords) := shaUpdate_of_finalized data (c := Ctx.closedWith h) rfl
  simp only [runCommands_cons, runCommands_nil, commandEffect, derive_eq, State.complete_ctx, misuse, State.complete_last,
    Ctx.raise_err]
  exact ⟨rfl, trivial⟩

/-- Settles O2: `SHA_FINAL` pads the empty message into one block on the zero hash state; its compression is evaluated. -/
theorem finalOnResetState : Obligations.FinalOnResetState := by
  have final : shaFinal Ctx.zero =
      (Ctx.closedWith { a := 0x0FFD8D43, b := 0xB4E33C7C, c := 0x53461BD1, d := 0x0F27A546, e := 0x1050D90D },
        { status := .ok
          result := [0x0F, 0xFD, 0x8D, 0x43, 0xB4, 0xE3, 0x3C, 0x7C, 0x53, 0x46, 0x1B, 0xD1, 0x0F, 0x27, 0xA5, 0x46, 0x10,
            0x50, 0xD9, 0x0D] }) := by decide +kernel
  exact ⟨_, exec_shaFinal_of_eq (s := State.reset) final, rfl, rfl⟩

end Sys2Proof.Machine
end

section
/-! The CRC as a linear code (41_crc8.md R141, R146, R148): the tables are the listed ones, every table step distributes over XOR and
loses no bit, so a string's CRC is zero for one last byte only, and a flipped bit never goes unseen. -/

namespace Sys2Proof.Machine

/-- Settles O34: both tables evaluated at every index. -/
theorem crcTablesAsListed : Obligations.CrcTablesAsListed := by
  constructor <;> decide +kernel

/-- Settles O36: `crc8_append`. -/
theorem crcChaining : Obligations.CrcChaining :=
  fun order init a b => crc8_append order a b init

/-! ## The table step is linear and injective -/

/-- A mask that is added where a bit is set is added to a sum where the sum of the bits is set. -/
theorem ite_xor_mask (mask x y : Byte) (bitX bitY : Bool) :
    (if (bitX ^^ bitY) = true then x ^^^ y ^^^ mask else x ^^^ y) =
      (if bitX = true then x ^^^ mask else x) ^^^ (if bitY = true then y ^^^ mask else y) := by
  cases bitX with
  | false =>
    cases bitY with
    | false => rfl
    | true => exact BitVec.xor_assoc x y mask
  | true =>
    cases bitY with
    | false => exact show x ^^^ y ^^^ mask = x ^^^ mask ^^^ y by ac_rfl
    | true =>
      have cancels : x ^^^ mask ^^^ (y ^^^ mask) = x ^^^ y := by
        rw [show x ^^^ mask ^^^ (y ^^^ mask) = x ^^^ y ^^^ (mask ^^^ mask) by ac_rfl, BitVec.xor_self, BitVec.xor_zero]
      exact cancels.symm

theorem crcShift_xor (order : Crc8Order) (x y : Byte) : crcShift order (x ^^^ y) = crcShift order x ^^^ crcShift order y := by
  cases order with
  | lsbFirst =>
    simp only [crcShift, BitVec.getLsbD_xor, BitVec.ushiftRight_xor_distrib]
    exact ite_xor_mask _ _ _ _ _
  | msbFirst =>
    simp only [crcShift, BitVec.getLsbD_xor, BitVec.shiftLeft_xor_distrib]
    exact ite_xor_mask _ _ _ _ _

theorem crcShifts_xor (order : Crc8Order) (n : Nat) : ∀ x y : Byte,
    crcShifts order n (x ^^^ y) = crcShifts order n x ^^^ crcShifts order n y := by
  induction n with
  | zero => exact fun x y => rfl
  | succ n ih => intro x y; rw [crcShifts, crcShift_xor, ih, crcShifts, crcShifts]

theorem crcTable_xor (order : Crc8Order) (x y : Byte) : crcTable order (x ^^^ y) = crcTable order x ^^^ crcTable order y :=
  crcShifts_xor order 8 x y

/-- Zero stands once in each table. -/
theorem crcTable_eq_zero (order : Crc8Order) (x : Byte) : crcTable order x = 0 ↔ x = 0 := by
  revert x
  cases order <;> decide +kernel

/-- A zero byte is one table step. -/
theorem crc8_cons_zero (order : Crc8Order) (init : Byte) (vs : List Byte) :
    crc8 order init (0 :: vs) = crc8 order (crcTable order init) vs := by
  rw [crc8_cons, show init ^^^ 0 = init from BitVec.xor_zero]

/-- The CRC from a sum of initial values is the CRC from one of them, and the other run over zeros. -/
theorem crc8_xor_init (order : Crc8Order) (s : List Byte) : ∀ x y : Byte,
    crc8 order (x ^^^ y) s = crc8 order x s ^^^ crc8 order y (List.replicate s.length 0) := by
  induction s with
  | nil => exact fun x y => rfl
  | cons v vs ih =>
    intro x y
    rw [crc8_cons, crc8_cons, List.length_cons, List.replicate_succ, crc8_cons_zero, ← ih, ← crcTable_xor,
      BitVec.xor_assoc, BitVec.xor_comm y v, BitVec.xor_assoc]

/-- A nonzero value stays nonzero through zero bytes. -/
theorem crc8_zeros_eq_zero (order : Crc8Order) (n : Nat) : ∀ x : Byte, crc8 order x (List.replicate n 0) = 0 ↔ x = 0 := by
  induction n with
  | zero => exact fun x => Iff.rfl
  | succ n ih => intro x; rw [List.replicate_succ, crc8_cons_zero, ih, crcTable_eq_zero]

/-! ## What a zero CRC says -/

/-- Settles O37: the last table step is zero exactly at index zero (`crcTable_eq_zero`). -/
theorem crcSelfCheck : Obligations.CrcSelfCheck := by
  intro order s v
  rw [crc8_concat]
  exact (crcTable_eq_zero order _).trans (BitVec.xor_eq_zero_iff.trans eq_comm)

/-- A difference added to one byte of a string is added to the CRC as the difference's own CRC over the zeros that follow. -/
theorem crc8_xor_byte (order : Crc8Order) (init : Byte) (before : List Byte) (v e : Byte) (after : List Byte) :
    crc8 order init (before ++ (v ^^^ e) :: after) =
      crc8 order init (before ++ v :: after) ^^^ crc8 order (crcTable order e) (List.replicate after.length 0) := by
  rw [crc8_append, crc8_append, crc8_cons, crc8_cons, ← BitVec.xor_assoc, crcTable_xor, crc8_xor_init]

/-- No nonzero difference in a single byte keeps the CRC. -/
theorem crc8_xor_byte_ne (order : Crc8Order) (init : Byte) (before : List Byte) (v : Byte) {e : Byte} (after : List Byte)
    (differs : e ≠ 0) : crc8 order init (before ++ (v ^^^ e) :: after) ≠ crc8 order init (before ++ v :: after) := by
  rw [crc8_xor_byte]
  intro same
  have unseen : crc8 order (crcTable order e) (List.replicate after.length 0) = 0 := by
    simpa using same
  exact differs ((crcTable_eq_zero order e).mp ((crc8_zeros_eq_zero order _ _).mp unseen))

theorem twoPow_ne_zero {k : Nat} (inside : k < 8) : BitVec.twoPow 8 k ≠ 0 := by
  intro zero
  have bit := congrArg (fun x => BitVec.getLsbD x k) zero
  simp [inside] at bit

/-- Settles O38: the string around the flipped byte, and `crc8_xor_byte_ne` for the flipped bit. -/
theorem crcDetectsSingleBit : Obligations.CrcDetectsSingleBit := by
  intro order s i k inside bit zero
  have split : s.take i ++ s.getD i 0 :: s.drop (i + 1) = s := by
    rw [List.getD_eq_getElem _ _ inside, ← List.drop_eq_getElem_cons inside, List.take_append_drop]
  have flipped := crc8_xor_byte_ne order 0x00 (s.take i) (s.getD i 0) (s.drop (i + 1)) (twoPow_ne_zero bit)
  rwa [split, zero, ← List.set_eq_take_cons_drop _ inside] at flipped

/-- A serial number is its eight bytes. -/
theorem serial_eq (serial : Bytes 8) : ∃ b0 b1 b2 b3 b4 b5 b6 b7 : Byte, serial = #v[b0, b1, b2, b3, b4, b5, b6, b7] := by
  refine ⟨serial[0], serial[1], serial[2], serial[3], serial[4], serial[5], serial[6], serial[7], ?_⟩
  ext i inside
  interval_cases i <;> rfl

/-- Settles O40: the gate's conditions (`serialAccepted_iff`) say what the first byte is, and by `crcSelfCheck` what the last is. -/
theorem acceptedSerials : Obligations.AcceptedSerials := by
  intro order serial
  rw [serialAccepted_iff]
  constructor
  · obtain ⟨b0, b1, b2, b3, b4, b5, b6, b7, rfl⟩ := serial_eq serial
    rintro ⟨tag, zero⟩
    obtain rfl : b0 = 0x3C := tag
    obtain rfl := (crcSelfCheck order [0x3C, b1, b2, b3, b4, b5, b6] b7).mp zero
    exact ⟨b1, b2, b3, b4, b5, b6, rfl⟩
  · rintro ⟨b1, b2, b3, b4, b5, b6, rfl⟩
    exact ⟨rfl, (crcSelfCheck order [0x3C, b1, b2, b3, b4, b5, b6] _).mpr rfl⟩

end Sys2Proof.Machine
end

section
/-! Engine B against the message and the standard digest (42_sha1_engine_b.md R167, R168): which bytes its block holds, and when that
block is a padded message of 55 bytes. -/

namespace Sys2Proof.Machine

theorem Bytes.getElem_eq_getD {n : Nat} (b : Bytes n) {i : Nat} (inside : i < n) : b[i] = b.toList.getD i 0 := by
  rw [List.getD_eq_getElem _ _ (by rwa [Vector.length_toList]), Vector.getElem_toList]

/-- The block is a function of message bytes 4 to 47 and 52 to 55 and of secret bytes 0 to 7: the secret's two words overwrite the
message's, and the length stands in the last two. -/
theorem macBlockWords_congr {m m' : Bytes 56} {k k' : Bytes 16}
    (front : ∀ i, 4 ≤ i → i ≤ 47 → m.toList.getD i 0 = m'.toList.getD i 0)
    (back : ∀ i, 52 ≤ i → i ≤ 55 → m.toList.getD i 0 = m'.toList.getD i 0)
    (secret : ∀ i, i ≤ 7 → k.toList.getD i 0 = k'.toList.getD i 0) : macBlockWords m k = macBlockWords m' k' := by
  have secretByte {i : Nat} (read : i ≤ 7) : k[i] = k'[i] := by
    rw [Bytes.getElem_eq_getD k, Bytes.getElem_eq_getD k', secret i read]
  refine List.ext_getElem (by rw [macBlockWords_length, macBlockWords_length]) fun i inside inside' => ?_
  rw [← List.getD_eq_getElem _ 0 inside, ← List.getD_eq_getElem _ 0 inside']
  rw [macBlockWords_length] at inside
  by_cases first : i = 0
  · subst first
    rw [macBlockWords_getD_zero, macBlockWords_getD_zero, secretByte (i := 0) (by omega), secretByte (i := 1) (by omega),
      secretByte (i := 2) (by omega), secretByte (i := 3) (by omega)]
  by_cases twelfth : i = 12
  · subst twelfth
    rw [macBlockWords_getD_twelve, macBlockWords_getD_twelve, secretByte (i := 4) (by omega), secretByte (i := 5) (by omega),
      secretByte (i := 6) (by omega), secretByte (i := 7) (by omega)]
  by_cases past : 13 < i
  · rw [macBlockWords_getD_of_lt m k past, macBlockWords_getD_of_lt m' k' past]
  · have messageByte (j : Nat) (inWord : j ≤ 3) : m.toList.getD (4 * i + j) 0 = m'.toList.getD (4 * i + j) 0 := by
      by_cases early : i ≤ 11
      · exact front _ (by omega) (by omega)
      · exact back _ (by omega) (by omega)
    rw [macBlockWords_getD_of_ne m k first twelfth, macBlockWords_getD_of_ne m' k' first twelfth,
      macPaddedWords_getD_of_le m (by omega), macPaddedWords_getD_of_le m' (by omega), messageByte 1 (by omega),
      messageByte 2 (by omega), messageByte 3 (by omega), show m.toList.getD (4 * i) 0 = _ from messageByte 0 (by omega)]
    rfl

/-- Settles O44: the reply reads the operands through the block alone (`macBlockWords_congr`). -/
theorem macIgnoresOverwrittenBytes : Obligations.MacIgnoresOverwrittenBytes := by
  intro feedforward m m' k k' front back secret
  unfold macReply macWords macRounds
  rw [macBlockWords_congr front back secret]

/-! ## The block as a padded message -/

theorem wordsOfBytes_flatMap_beBytes (ws : List Word) : wordsOfBytes (ws.flatMap beBytes) = ws := by
  induction ws with
  | nil => rfl
  | cons w ws ih => rw [List.flatMap_cons, wordsOfBytes_beBytes_append, ih]

theorem flatMap_beBytes_length (ws : List Word) : (ws.flatMap beBytes).length = 4 * ws.length := by
  induction ws with
  | nil => rfl
  | cons w ws ih =>
    rw [List.flatMap_cons, List.length_append, beBytes_length, ih, List.length_cons]
    omega

/-- `BEbytes(BE32(b0, b1, b2, b3))` is the four bytes. -/
theorem beBytes_be32 (b0 b1 b2 b3 : Byte) : beBytes (be32 b0 b1 b2 b3) = [b0, b1, b2, b3] := by
  have value := be32_toNat b0 b1 b2 b3
  have := b0.isLt
  have := b1.isLt
  have := b2.isLt
  have := b3.isLt
  have slice (start : Nat) (b : Byte) (shifted : (be32 b0 b1 b2 b3).toNat / 2 ^ start % 2 ^ 8 = b.toNat) :
      (be32 b0 b1 b2 b3).extractLsb' start 8 = b :=
    BitVec.eq_of_toNat_eq (by rw [BitVec.extractLsb'_toNat, Nat.shiftRight_eq_div_pow, shifted])
  rw [beBytes, slice 24 b0 (by omega), slice 16 b1 (by omega), slice 8 b2 (by omega), slice 0 b3 (by omega)]

/-- A message of 55 bytes is padded to one block by the byte `0x80` and the length 440 (40_sha1_engine_a.md R110). -/
theorem padMessage_of_length {m : List Byte} (length : m.length = 55) :
    padMessage m = m ++ 0x80 :: (beBytes 0 ++ beBytes Config.macLenField) := by
  rw [padMessage, length, show padZeros 55 = 0 from rfl, show lengthField 55 = beBytes 0 ++ beBytes Config.macLenField by decide,
    List.replicate_zero, List.append_nil, List.append_assoc, List.singleton_append]

theorem sha1Words_of_length {m : List Byte} (length : m.length = 55) : sha1Words m = compress Config.iv (padMessage m) := by
  have block : (padMessage m).length = 64 := by
    rw [padMessage_of_length length]
    simp [length]
  rw [sha1Words, block, compressBlocks_one _ block]

section Block

variable (message : Bytes 56) (secret : Bytes 16)

/-- The last three words of the block: the message's last four bytes, and the length field. -/
theorem macBlockWords_drop :
    (macBlockWords message secret).drop 13 =
      [be32 message[52] message[53] message[54] message[55], 0, Config.macLenField] := by
  have last : (macBlockWords message secret).getD 13 0 = be32 message[52] message[53] message[54] message[55] := by
    rw [macBlockWords_getD_of_ne message secret (by decide) (by decide), macPaddedWords_getD_of_le message (Nat.le_refl 13)]
    simp only [Bytes.getElem_eq_getD]
  have hi := macBlockWords_getD_of_lt message secret (i := 14) (by decide)
  have lo := macBlockWords_getD_of_lt message secret (i := 15) (by decide)
  have words := macBlockWords_length message secret
  rw [List.getD_eq_getElem _ _ (by omega)] at last hi lo
  rw [List.drop_eq_getElem_cons (by omega), List.drop_eq_getElem_cons (by omega), List.drop_eq_getElem_cons (by omega), last, hi,
    lo, List.drop_of_length_le words.le]
  rfl

/-- Where the message ends in the pad byte, the block is the padding of its own first 55 bytes. -/
theorem flatMap_macBlockWords_eq_padMessage (padByte : message[55] = 0x80) :
    (macBlockWords message secret).flatMap beBytes =
      padMessage (((macBlockWords message secret).flatMap beBytes).take 55) := by
  have front : (((macBlockWords message secret).take 13).flatMap beBytes).length = 52 := by
    rw [flatMap_beBytes_length, List.length_take, macBlockWords_length]
    rfl
  have block : (macBlockWords message secret).flatMap beBytes =
      (((macBlockWords message secret).take 13).flatMap beBytes ++ [message[52], message[53], message[54]]) ++
        0x80 :: (beBytes 0 ++ beBytes Config.macLenField) := by
    conv_lhs => rw [← List.take_append_drop 13 (macBlockWords message secret), macBlockWords_drop]
    simp [beBytes_be32, padByte]
  rw [block, List.take_left' (by simp [front]), padMessage_of_length (by simp [front])]

end Block

/-- Settles O45: the add-back is the definition of `macWords`; with it Engine B compresses its block as Engine A would, and where
that block is a padded message (`flatMap_macBlockWords_eq_padMessage`) the result is the message's digest, emitted in reverse. -/
theorem macRelatesToDigest : Obligations.MacRelatesToDigest := by
  intro message secret
  refine ⟨by simp only [macWords, if_true, Bool.false_eq_true, if_false], fun padByte => ?_⟩
  have block := flatMap_macBlockWords_eq_padMessage message secret padByte
  have length : (((macBlockWords message secret).flatMap beBytes).take 55).length = 55 := by
    rw [List.length_take, flatMap_beBytes_length, macBlockWords_length]
    rfl
  rw [macBytes_eq_reverse_digestBytes, sha1, sha1Words_of_length length, ← block, compress, wordsOfBytes_flatMap_beBytes,
    macWords, if_pos rfl, macRounds]

end Sys2Proof.Machine
end

section
/-! The scrambler under a well-formed table (43_derive_scramble.md R180, R182, R183): no source is a destination and no destination
occurs twice, so every pair reads bytes that no pair has written. -/

namespace Sys2Proof.Machine

/-- What the check of a table says of its destinations and sources (43_derive_scramble.md R180 (b), (c)). -/
theorem scrambleTable_destinations (table : ScrambleTable) :
    (table.pairs.map ScramblePair.dst).Nodup ∧ ∀ p ∈ table.pairs, ∀ q ∈ table.pairs, p.dst ≠ q.src := by
  have checked := table.wellFormed
  simp only [scrambleTableWellFormed, Bool.and_eq_true, decide_eq_true_eq, List.all_eq_true] at checked
  obtain ⟨⟨_, nodup⟩, disjoint⟩ := checked
  exact ⟨nodup, disjoint⟩

section Pairs

variable (x : Bytes 16) (p : ScramblePair)

theorem scramblePair_getElem_dst : (scramblePair x p)[p.dst.val] = x[p.dst.val] ^^^ x[p.src.val] :=
  Vector.getElem_set_self _

theorem scramblePair_getElem_of_ne {i : Fin 16} (ne : p.dst ≠ i) : (scramblePair x p)[i.val] = x[i.val] :=
  Vector.getElem_set_ne _ _ fun same => ne (Fin.ext same)

end Pairs

/-- A position that is no destination keeps its byte, under any list of pairs. -/
theorem scramblePairs_getElem_of_ne {i : Fin 16} (pairs : List ScramblePair) : ∀ x : Bytes 16, (∀ p ∈ pairs, p.dst ≠ i) →
    (scramblePairs pairs x)[i.val] = x[i.val] := by
  induction pairs with
  | nil => exact fun x _ => rfl
  | cons q qs ih =>
    intro x kept
    exact (ih (scramblePair x q) fun p later => kept p (List.mem_cons_of_mem q later)).trans
      (scramblePair_getElem_of_ne x q (kept q List.mem_cons_self))

/-- A destination receives its own byte and its source's: its pair finds both as they were, and no later pair writes it. -/
theorem scramblePairs_getElem_dst (pairs : List ScramblePair) : ∀ x : Bytes 16, (pairs.map ScramblePair.dst).Nodup →
    (∀ p ∈ pairs, ∀ q ∈ pairs, p.dst ≠ q.src) → ∀ p ∈ pairs,
    (scramblePairs pairs x)[p.dst.val] = x[p.dst.val] ^^^ x[p.src.val] := by
  induction pairs with
  | nil => exact fun x _ _ p absent => absurd absent List.not_mem_nil
  | cons q qs ih =>
    intro x nodup disjoint p present
    rw [List.map_cons, List.nodup_cons] at nodup
    obtain ⟨notLater, nodup⟩ := nodup
    have otherDst (r : ScramblePair) (later : r ∈ qs) : r.dst ≠ q.dst :=
      fun same => notLater (same ▸ List.mem_map_of_mem later)
    rcases List.mem_cons.mp present with rfl | later
    · exact (scramblePairs_getElem_of_ne qs _ otherDst).trans (scramblePair_getElem_dst x p)
    · have rest := ih (scramblePair x q) nodup
        (fun a inA b inB => disjoint a (List.mem_cons_of_mem q inA) b (List.mem_cons_of_mem q inB)) p later
      rw [scramblePair_getElem_of_ne x q (otherDst p later).symm,
        scramblePair_getElem_of_ne x q (disjoint q List.mem_cons_self p present)] at rest
      exact rest

theorem scrambleVector_getElem (digest : Bytes 20) (i : Fin 16) : (scrambleVector digest)[i.val] = digest[i.val] := by
  rw [Bytes.getElem_eq_getD _ i.isLt, scrambleVector, Bytes.toList_ofList 16 _ (by rw [Vector.length_toList]; decide),
    Bytes.getElem_eq_getD digest (by omega)]
  simp only [List.getD_eq_getElem?_getD, List.getElem?_take_of_lt i.isLt]

/-- Settles O47: `scramblePairs_getElem_dst` and `scramblePairs_getElem_of_ne` on the first 16 digest bytes. -/
theorem scrambleClosedForm : Obligations.ScrambleClosedForm := by
  intro table digest
  obtain ⟨nodup, disjoint⟩ := scrambleTable_destinations table
  refine ⟨fun p present => ?_, fun i kept => ?_⟩
  · rw [scrambleDigest, scramblePairs_getElem_dst _ _ nodup disjoint p present, scrambleVector_getElem, scrambleVector_getElem]
  · rw [scrambleDigest, scramblePairs_getElem_of_ne _ _ kept, scrambleVector_getElem]

/-- Settles O48: a destination is XORed with its source's byte twice, and that byte, standing at no destination, is the same both
times; every other position keeps its byte. -/
theorem scrambleIsInvolution : Obligations.ScrambleIsInvolution := by
  intro table x
  obtain ⟨nodup, disjoint⟩ := scrambleTable_destinations table
  refine Vector.ext fun i inside => ?_
  by_cases destination : ∃ p ∈ table.pairs, p.dst = ⟨i, inside⟩
  · obtain ⟨p, present, dst⟩ := destination
    obtain rfl : p.dst.val = i := congrArg Fin.val dst
    rw [scramblePairs_getElem_dst _ _ nodup disjoint p present, scramblePairs_getElem_dst _ _ nodup disjoint p present,
      scramblePairs_getElem_of_ne _ _ fun q other => disjoint q other p present, BitVec.xor_assoc, BitVec.xor_self,
      BitVec.xor_zero]
  · have kept (p : ScramblePair) (present : p ∈ table.pairs) : p.dst ≠ ⟨i, inside⟩ :=
      fun dst => destination ⟨p, present, dst⟩
    exact (scramblePairs_getElem_of_ne (i := ⟨i, inside⟩) _ _ kept).trans
      (scramblePairs_getElem_of_ne (i := ⟨i, inside⟩) _ _ kept)

end Sys2Proof.Machine
end

section
/-! The host's error classes and its policy (60_exceptions.md R209, R212, R213; 70_reset_and_hazards.md R236, R237): the
comparison of two buffers, the class of a response, a transport failure, and the halt at the first failed round. -/

namespace Sys2Proof.Machine

/-- Settles O55: the or of the bytes' differences is zero when each of them is, at every place of the two strings. -/
theorem comparisonFindsDifference : Obligations.ComparisonFindsDifference := by
  intro a
  induction a with
  | nil =>
    intro b length
    obtain rfl := List.length_eq_zero_iff.mp length.symm
    exact iff_of_true rfl rfl
  | cons x xs ih =>
    intro b length
    cases b with
    | nil => cases length
    | cons y ys =>
      have rest := ih ys (Nat.succ.inj length)
      calc differenceBits (x :: xs) (y :: ys) = 0
          ↔ x ^^^ y = 0 ∧ differenceBits xs ys = 0 := BitVec.or_eq_zero_iff
        _ ↔ x = y ∧ xs = ys := and_congr BitVec.xor_eq_zero_iff rest
        _ ↔ x :: xs = y :: ys := (List.cons.injEq x xs y ys).to_iff.symm

theorem comparisonHostError_eq {expected response : List Byte} (length : expected.length = response.length) :
    comparisonHostError expected response = if expected = response then none else some .responseMismatch := by
  simp only [comparisonHostError, comparisonFindsDifference expected response length]

@[simp] theorem statusOfCode_statusCode (status : Status) : statusOfCode (statusCode status) = some status := by
  cases status <;> rfl

theorem statusHostError_eq (status : Status) : statusHostError status = if status = .ok then none else some .sequenceError := by
  cases status <;> rfl

/-- A response begins with the code of its status. -/
theorem Reply.packet_head (r : Reply) : r.packet.head? = some (statusCode r.status) := by
  rcases r.packet_cases with ⟨ok, packet⟩ | ⟨_, packet⟩
  · rw [packet, ok]
    rfl
  · rw [packet]
    rfl

/-- The response `00 00` is `OK` with the result `00`. -/
theorem Reply.packet_eq_rejection (r : Reply) : r.packet = [0x00, 0x00] ↔ r = { status := .ok, result := [0x00] } := by
  constructor
  · intro packet
    obtain ⟨status, result⟩ := r
    obtain rfl : status = .ok := Reply.status_ok_of_packet packet
    rw [Reply.packet_ok, List.cons.injEq] at packet
    rw [packet.2]
  · rintro rfl
    rfl

/-- The class of a response is that of its status, but for a rejected serial number (60_exceptions.md R209). -/
theorem responseHostError_packet (op : Opcode) (r : Reply) :
    responseHostError op r.packet =
      if op = .snCheck ∧ r = { status := .ok, result := [0x00] } then some .identityInvalid else statusHostError r.status := by
  simp only [responseHostError, Reply.packet_eq_rejection, Reply.packet_head, Option.bind_some, statusOfCode_statusCode]

theorem HostError.sequenceError_outcome :
    HostError.sequenceError.outcome = .mismatch ∨ HostError.sequenceError.outcome = .transportFailed := by
  rw [HostError.outcome]
  cases Config.sequenceErrorIsTransportFailed with
  | false => exact .inl rfl
  | true => exact .inr rfl

/-- Settles O58: one lemma for each kind of class, and the outcomes by their definition. -/
theorem errorsBubbleUp : Obligations.ErrorsBubbleUp :=
  ⟨statusHostError_eq, responseHostError_packet, fun _ _ length => comparisonHostError_eq length, rfl, rfl, rfl,
    HostError.sequenceError_outcome, fun o => by cases o <;> rfl⟩

/-- Settles O57: the phases one by one. -/
theorem transportFailureEndsRound : Obligations.TransportFailureEndsRound := by
  refine ⟨fun phase notFirst unfinished => ?_, rfl, fun o e => rfl⟩
  cases phase with
  | idle retried =>
    cases retried with
    | false => exact absurd rfl notFirst
    | true => rfl
  | challengeSent | computeTriggered | identityFetched | locallyVerified | responseFetched => rfl
  | finished o => exact absurd rfl (unfinished o)

/-- A failed round is the last one started (60_exceptions.md R213). -/
theorem scheduleRounds_of_failed {o : RoundOutcome} (failed : o ≠ .authenticated) (rest : List RoundOutcome) :
    scheduleRounds (o :: rest) = { started := 1, halts := 1 } := by
  cases o with
  | authenticated => exact absurd rfl failed
  | mismatch | transportFailed => rfl

/-- Rounds that authenticate are only counted. -/
theorem scheduleRounds_append (before rest : List RoundOutcome) (authenticated : ∀ o ∈ before, o = .authenticated) :
    scheduleRounds (before ++ rest) =
      { started := (scheduleRounds rest).started + before.length, halts := (scheduleRounds rest).halts } := by
  induction before with
  | nil => rfl
  | cons o before ih =>
    obtain rfl := authenticated o List.mem_cons_self
    rw [List.cons_append, scheduleRounds, ih fun o later => authenticated o (List.mem_cons_of_mem _ later)]
    rfl

/-- Settles O56: the authenticated rounds are counted (`scheduleRounds_append`), and the first other one is the last
(`scheduleRounds_of_failed`). -/
theorem schedulerHaltsOnce : Obligations.SchedulerHaltsOnce := by
  intro outcomes
  constructor
  · intro authenticated
    have counted := scheduleRounds_append outcomes [] authenticated
    rw [List.append_nil] at counted
    rw [counted]
    simp [scheduleRounds]
  · rintro before o rest rfl authenticated failed
    rw [scheduleRounds_append before _ authenticated, scheduleRounds_of_failed failed, Nat.add_comm]

end Sys2Proof.Machine
end

section
/-! The block's part of a round (70_reset_and_hazards.md R238): each of the host's commands runs on the block with its effect, and
the round's outcome follows from the three responses. -/

namespace Sys2Proof.Machine

/-- Issuing a command of at most 80 operand bytes runs it on the block with no packet waiting, and takes its response. -/
theorem issue_encode {i : Instr} (short : i.payloadLength ≤ 80) {s : State} {c : Ctx} {r : Reply}
    (effect : commandEffect i s.ctx = (c, r)) :
    issue (encode i) s = (State.complete { s with input := [] } c r, r.packet) :=
  issue_command (decodeWith_encode _ i (Instr.wellFormed_of_short _ i short)) (exec_of_effect effect)

/-- The password of a round: the response to its `DERIVE` (43_derive_scramble.md R185). -/
def roundPassword (x : RoundInputs) (c : Ctx) : List Byte :=
  (derive Config.table x.deviceMac x.userData x.serial c).2.result

/-- The response that the host expects of the device: the MAC under the derived password (70_reset_and_hazards.md R238). -/
def roundExpected (x : RoundInputs) (c : Ctx) : List Byte :=
  macBytes (macWords Config.macFeedforward (Bytes.ofList 56 x.challenge.toList)
    (Bytes.ofList 16 (roundPassword x c ++ x.secretTail.toList)))

section Responses

variable (x : RoundInputs) (s : State)

/-- After the serial check the block's context is as it was. -/
theorem issue_snCheck :
    issue (encode (.snCheck x.serial)) s =
      (State.complete { s with input := [] } s.ctx (snCheckReply Config.crc8Order x.serial),
        (snCheckReply Config.crc8Order x.serial).packet) :=
  issue_encode (i := .snCheck x.serial) (show 8 ≤ 80 by decide) rfl

theorem responseHostError_snCheck :
    responseHostError .snCheck (snCheckReply Config.crc8Order x.serial).packet =
      if serialAccepted Config.crc8Order x.serial = true then none else some .identityInvalid := by
  rw [responseHostError_packet, snCheckReply]
  cases serialAccepted Config.crc8Order x.serial <;> rfl

/-- An `OK` response to a command other than the serial check has no error class. -/
theorem responseHostError_ok {op : Opcode} (other : op ≠ .snCheck) {r : Reply} (ok : r.status = .ok) :
    responseHostError op r.packet = none := by
  rw [responseHostError_packet, if_neg fun rejected => other rejected.1, ok, statusHostError]

/-- A rejected serial number ends the verification before any other command (70_reset_and_hazards.md R238). -/
theorem localVerification_of_rejected (rejected : serialAccepted Config.crc8Order x.serial = false) :
    localVerification x s =
      (State.complete { s with input := [] } s.ctx (snCheckReply Config.crc8Order x.serial), .error .identityInvalid) := by
  simp only [localVerification, issue_snCheck, responseHostError_snCheck, rejected, Bool.false_eq_true, if_false]

/-- With an accepted serial number the verification ends with the expected response. -/
theorem localVerification_of_accepted (accepted : serialAccepted Config.crc8Order x.serial = true) :
    (localVerification x s).2 = .ok (roundExpected x s.ctx) := by
  have derived (t : State) (found : t.ctx = s.ctx) :
      issue (encode (.derive x.deviceMac x.userData x.serial)) t =
        (State.complete { t with input := [] } (derive Config.table x.deviceMac x.userData x.serial s.ctx).1
          { status := .ok, result := roundPassword x s.ctx }, 0x00 :: roundPassword x s.ctx) :=
    issue_encode (i := .derive x.deviceMac x.userData x.serial) (Nat.le_refl 80) (by rw [found]; rfl)
  have authenticated (t : State) :
      issue (encode (roundMac x (0x00 :: roundPassword x s.ctx))) t =
        (State.complete { t with input := [] } t.ctx { status := .ok, result := roundExpected x s.ctx },
          0x00 :: roundExpected x s.ctx) :=
    issue_encode (i := roundMac x (0x00 :: roundPassword x s.ctx)) (show 72 ≤ 80 by decide) rfl
  have ok (op : Opcode) (other : op ≠ .snCheck) (result : List Byte) : responseHostError op (0x00 :: result) = none :=
    responseHostError_ok (r := { status := .ok, result := result }) other rfl
  simp only [localVerification, issue_snCheck, responseHostError_snCheck, accepted, if_true, derived _ (State.complete_ctx _ _ _),
    authenticated, ok .derive (by decide), ok .mac (by decide), List.drop_one, List.tail_cons]

theorem roundExpected_length (c : Ctx) : (roundExpected x c).length = 20 :=
  macBytes_length _

theorem authenticationRound_of_rejected (rejected : serialAccepted Config.crc8Order x.serial = false) :
    (authenticationRound x s).2 = .mismatch ∧ (authenticationRound x s).1.ctx = s.ctx := by
  simp only [authenticationRound, localVerification_of_rejected x s rejected, State.complete_ctx, and_true]
  rfl

theorem authenticationRound_of_accepted (accepted : serialAccepted Config.crc8Order x.serial = true) :
    (authenticationRound x s).2 =
      if roundExpected x s.ctx = x.deviceResponse.toList then .authenticated else .mismatch := by
  have length : (roundExpected x s.ctx).length = x.deviceResponse.toList.length := by
    rw [roundExpected_length, Vector.length_toList]
  simp only [authenticationRound, localVerification_of_accepted x s accepted, comparisonHostError_eq length]
  split_ifs <;> rfl

end Responses

/-- Settles O54: the two answers of the serial check, by `authenticationRound_of_rejected` and `authenticationRound_of_accepted`. -/
theorem roundAuthenticates : Obligations.RoundAuthenticates := by
  intro x s
  cases gate : serialAccepted Config.crc8Order x.serial with
  | false =>
    obtain ⟨outcome, kept⟩ := authenticationRound_of_rejected x s gate
    rw [outcome]
    exact ⟨⟨nofun, fun authentic => nomatch authentic.1⟩, nofun, fun _ => kept⟩
  | true =>
    rw [authenticationRound_of_accepted x s gate]
    refine ⟨?_, ?_, nofun⟩
    · show _ ↔ true = true ∧ x.deviceResponse.toList = roundExpected x s.ctx
      split_ifs with same
      · exact iff_of_true rfl ⟨rfl, same.symm⟩
      · exact iff_of_false nofun fun authentic => same authentic.2.symm
    · split_ifs <;> decide

end Sys2Proof.Machine
end

section
/-! A whole round under the transport's events, and the host process over rounds (70_reset_and_hazards.md R236 to R243;
60_exceptions.md R213). -/

namespace Sys2Proof.Machine

section Round

variable (x : RoundInputs) (s : State)

/-- Four successful calls from either first phase: the verification when the serial number is there, then the comparison. -/
theorem foldl_transport_done (retried : Bool) :
    [TransportEvent.done, .done, .done, .done].foldl (RoundRun.transport x)
        { phase := .idle retried, block := s, expected := [] } =
      RoundRun.transport x (RoundRun.settle x { phase := .identityFetched, block := s, expected := [] }) .done := by
  cases retried <;> rfl

/-- What the verification and the comparison leave is what the block's part of the round gives. -/
theorem transport_done_settle :
    let r := RoundRun.transport x (RoundRun.settle x { phase := .identityFetched, block := s, expected := [] }) .done
    (r.block, r.phase.outcome) = authenticationRound x s := by
  rw [RoundRun.settle_identityFetched, authenticationRound]
  cases (localVerification x s).2 with
  | error e => rfl
  | ok expected =>
    have compared : RoundRun.transport x { phase := .locallyVerified, block := (localVerification x s).1, expected := expected } .done =
        { phase := .finished (roundOutcome (comparisonHostError expected x.deviceResponse.toList)),
          block := (localVerification x s).1, expected := expected } := RoundRun.settle_responseFetched _ _ _
    simp only [compared, RoundPhase.outcome]

/-- What holds of a round on a block that was in state `s`, after any reports: until the verification the block is untouched;
after it, the expected response is the one computed; and it has authenticated only if the block's part of it does. -/
def RoundRun.Follows (r : RoundRun) : Prop :=
  match r.phase with
  | .idle _ => r.block = s
  | .challengeSent => r.block = s
  | .computeTriggered => r.block = s
  | .identityFetched => False
  | .locallyVerified => (localVerification x s).2 = .ok r.expected
  | .responseFetched => False
  | .finished o => o = .authenticated → (authenticationRound x s).2 = .authenticated

/-- When the serial number arrives, the verification runs on the untouched block. -/
theorem RoundRun.follows_settle_identityFetched (expected : List Byte) :
    (RoundRun.settle x { phase := .identityFetched, block := s, expected := expected }).Follows x s := by
  rw [RoundRun.settle_identityFetched]
  cases verified : (localVerification x s).2 with
  | error e =>
    intro authenticated
    simpa only [authenticationRound, verified] using authenticated
  | ok computed => exact verified

/-- When the device's response arrives, it is compared with the one computed. -/
theorem RoundRun.follows_settle_responseFetched {expected : List Byte} (verified : (localVerification x s).2 = .ok expected)
    (block : State) : (RoundRun.settle x { phase := .responseFetched, block := block, expected := expected }).Follows x s := by
  rw [RoundRun.settle_responseFetched]
  intro authenticated
  simpa only [authenticationRound, verified] using authenticated

/-- Every report keeps it: a failure ends the round as `transportFailed` or asks for the retry, a read of the device's data that
succeeds changes nothing, and a call that succeeds moves the round on. -/
theorem RoundRun.follows_transport (r : RoundRun) (e : TransportEvent) (follows : r.Follows x s) :
    (r.transport x e).Follows x s := by
  obtain ⟨phase, block, expected⟩ := r
  cases e with
  | failed =>
    cases phase with
    | idle retried =>
      cases retried with
      | false => exact follows
      | true => exact nofun
    | finished o => exact follows
    | challengeSent | computeTriggered | identityFetched | locallyVerified | responseFetched => exact nofun
  | deviceDataRead ok =>
    cases ok with
    | false =>
      cases phase with
      | finished o => exact follows
      | idle | challengeSent | computeTriggered | identityFetched | locallyVerified | responseFetched => exact nofun
    | true =>
      cases phase with
      | identityFetched | responseFetched => exact follows.elim
      | idle | challengeSent | computeTriggered | locallyVerified | finished => exact follows
  | done =>
    cases phase with
    | idle retried => cases retried <;> exact follows
    | challengeSent => exact follows
    | computeTriggered =>
      obtain rfl : block = s := follows
      exact RoundRun.follows_settle_identityFetched x block expected
    | locallyVerified => exact RoundRun.follows_settle_responseFetched x s follows block
    | identityFetched | responseFetched => exact follows.elim
    | finished o => exact follows

theorem RoundRun.follows_transports (events : List TransportEvent) : ∀ r : RoundRun, r.Follows x s →
    (events.foldl (RoundRun.transport x) r).Follows x s := by
  induction events with
  | nil => exact fun r follows => follows
  | cons e events ih => exact fun r follows => ih _ (RoundRun.follows_transport x s r e follows)

end Round

/-- A round's outcome is `authenticated` only in the phase that says so. -/
theorem RoundPhase.eq_of_outcome_authenticated {phase : RoundPhase} (authenticated : phase.outcome = .authenticated) :
    phase = .finished .authenticated := by
  cases phase with
  | finished o => exact congrArg RoundPhase.finished authenticated
  | idle | challengeSent | computeTriggered | identityFetched | locallyVerified | responseFetched => cases authenticated

/-- Settles O59: the retried challenge write comes back to the four calls (`foldl_transport_done`, `transport_done_settle`), and
`RoundRun.Follows` is kept by every event. -/
theorem roundFollowsTransport : Obligations.RoundFollowsTransport := by
  intro x s
  have fourCalls (retried : Bool) :
      let r := [TransportEvent.done, .done, .done, .done].foldl (RoundRun.transport x)
        { phase := .idle retried, block := s, expected := [] }
      (r.block, r.phase.outcome) = authenticationRound x s := by
    rw [foldl_transport_done]
    exact transport_done_settle x s
  refine ⟨fourCalls false, fourCalls true, rfl, fun events failed authenticated => failed ?_⟩
  have follows := RoundRun.follows_transports x s events { phase := .idle false, block := s, expected := [] } rfl
  have ended := RoundPhase.eq_of_outcome_authenticated authenticated
  rw [RoundRun.Follows, ended] at follows
  exact follows rfl

/-! ## The host process -/

/-- After a security failure no wake-up does anything. -/
theorem foldl_wake_of_stopped (rounds : List RoundScript) {p : HostProcess} (stopped : p.status = .securityFailure) :
    rounds.foldl HostProcess.wake p = p := by
  induction rounds with
  | nil => rfl
  | cons r rounds ih => rw [List.foldl_cons, HostProcess.wake_stopped p r stopped, ih]

/-- The halts that a process counts are those of its one terminal state. -/
def HostProcess.HaltsOnce (p : HostProcess) : Prop :=
  p.halts = if p.status = .securityFailure then 1 else 0

theorem HostProcess.haltsOnce_wake {p : HostProcess} (once : p.HaltsOnce) (r : RoundScript) : (p.wake r).HaltsOnce := by
  by_cases stopped : p.status = .securityFailure
  · rwa [HostProcess.wake_stopped p r stopped]
  · have none : p.halts = 0 := once.trans (if_neg stopped)
    rcases HostProcess.wake_cases p r stopped with ⟨_, eq⟩ | ⟨_, eq⟩ <;> rw [eq, HaltsOnce, none] <;> rfl

theorem HostProcess.haltsOnce_foldl (rounds : List RoundScript) : ∀ p : HostProcess, p.HaltsOnce →
    (rounds.foldl HostProcess.wake p).HaltsOnce := by
  induction rounds with
  | nil => exact fun p once => once
  | cons r rounds ih => exact fun p once => ih _ (HostProcess.haltsOnce_wake once r)

/-- From a process that has not stopped, the rounds started and the halts are added as the scheduler's policy counts them. -/
theorem foldl_wake_counts (rounds : List RoundScript) : ∀ p : HostProcess, p.status ≠ .securityFailure →
    (rounds.foldl HostProcess.wake p).started = p.started + (scheduleRounds (roundOutcomes rounds p.block)).started ∧
    (rounds.foldl HostProcess.wake p).halts = p.halts + (scheduleRounds (roundOutcomes rounds p.block)).halts := by
  induction rounds with
  | nil => exact fun p _ => ⟨rfl, rfl⟩
  | cons r rounds ih =>
    intro p running
    rw [List.foldl_cons, roundOutcomes]
    rcases HostProcess.wake_cases p r running with ⟨authenticated, eq⟩ | ⟨failed, eq⟩
    · obtain ⟨started, halts⟩ := ih (p.wake r) (by rw [eq]; exact nofun)
      rw [started, halts, eq, authenticated, scheduleRounds]
      exact ⟨Nat.add_right_comm _ _ _, rfl⟩
    · rw [foldl_wake_of_stopped rounds (by rw [eq]), scheduleRounds_of_failed failed, eq]
      exact ⟨rfl, rfl⟩

/-- Settles O60: `HostProcess.HaltsOnce` holds at the start and every round keeps it; a stopped process stays
(`foldl_wake_of_stopped`); and the counts are the scheduler's (`foldl_wake_counts`). -/
theorem hostStopsAtSecurityFailure : Obligations.HostStopsAtSecurityFailure := by
  intro rounds s
  refine ⟨HostProcess.haltsOnce_foldl rounds _ rfl, fun more stopped => ?_, ?_⟩
  · rw [runHost, List.foldl_append]
    exact foldl_wake_of_stopped more stopped
  · obtain ⟨started, halts⟩ :=
      foldl_wake_counts rounds { status := .starting, started := 0, halts := 0, block := s } nofun
    rw [runHost, started, halts, Nat.zero_add, Nat.zero_add]

end Sys2Proof.Machine
end
